-- ==== Sys2Proof/Word.lean ====
section
/-! DEFINITION. The word types of the block: 32-bit registers and command words (R7, R80), 16-bit immediates and
buffer addresses (R81), 8-bit bytes (R51), 4-bit response codes (R220). Bits are numbered from 0, the least
significant, upward (R8). -/

namespace Sys2Proof

/-- A 32-bit register, command word or argument word (R7, R80). -/
abbrev Word := BitVec 32

/-- The 16-bit IMM field: an offset, a buffer address or a register index (R81, R82). -/
abbrev Half := BitVec 16

/-- One byte of the buffer, of ARG or of the digest (R51, R52, R161). -/
abbrev Byte := BitVec 8

/-- A 4-bit response code (R220). -/
abbrev Nibble := BitVec 4

end Sys2Proof
end

