-- ==== Sys2Proof/Machine/Operands.lean ====
section
/-! DEFINITION. Operand assembly (R83) and byte order (R52): the fields of CMD, the bytes of a word, the low bytes of
ARG, and the words a host packs bytes into. No operand is sign-extended, scaled or shifted. -/

namespace Sys2Proof.Machine

/-- OPC = CMD[31:24] (R81). -/
def cmdOpc (cmd : Word) : Byte := cmd.extractLsb' 24 8

/-- RSV = CMD[23:16] (R81). -/
def cmdRsv (cmd : Word) : Byte := cmd.extractLsb' 16 8

/-- IMM = CMD[15:0] (R81). -/
def cmdImm (cmd : Word) : Half := cmd.extractLsb' 0 16

/-- N1 = IMM[1:0], the byte count minus one (R82, form N). -/
def immCount (imm : Half) : BitVec 2 := imm.extractLsb' 0 2

/-- IMM[15:2], which form N requires to be zero (R82). -/
def immCountRest (imm : Half) : BitVec 14 := imm.extractLsb' 2 14

/-- A CMD word from its opcode and immediate, with RSV zero (R81). -/
def cmdWord (opc : Byte) (imm : Half) : Word := opc ++ 0#8 ++ imm

/-- n = zext(IMM[1:0]) + 1, in 1..4 (R83). -/
def byteCount (nm1 : BitVec 2) : Nat := nm1.toNat + 1

/-- Byte j of a word: v[8j+7:8j] (R10, R52). -/
def byteOf (v : Word) (j : Nat) : Byte := v.extractLsb' (8 * j) 8

/-- The bytes 0..n-1 of a word, in the order they are taken: the least significant first (R52). -/
def bytesOf (n : Nat) (v : Word) : List Byte := (List.range n).map (byteOf v)

/-- v with the bits above its low n bytes zero: what is left of ARG when ARG[31:8n] is ignored (R84). -/
def lowBytes (n : Nat) (v : Word) : Word := v &&& BitVec.ofNat 32 (2 ^ (8 * n) - 1)

/-- The word whose byte 0 is b0 and whose byte 3 is b3 (R90: the word with b3 in its most significant byte). -/
def packWord (b0 b1 b2 b3 : Byte) : Word := b3 ++ b2 ++ b1 ++ b0

end Sys2Proof.Machine
end

