-- ==== Sys2Proof/Syntax.lean ====
section
/-! DEFINITION. The commands of CRC32-CMD revision 1: the pair of words a transaction carries (R80) and the 14
commands of the opcode map (R85), one constructor per row, with the operands of R83. -/

namespace Sys2Proof

/-- The two words of one transaction (R80). -/
structure Command where
  cmd : Word
  arg : Word
deriving DecidableEq, Repr

/-- The 14 commands (R85). An operand has the width R83 forms it with; ARG bits a command ignores (R84) are no
operand. -/
inductive Instr where
  /-- OPC 0x00, `nop` (R175). -/
  | nop
  /-- OPC 0x01, `set_poly P` (R112). -/
  | setPoly (p : Word)
  /-- OPC 0x02, `build_table` (R113). -/
  | buildTable
  /-- OPC 0x03, `set_seed S` (R132). -/
  | setSeed (s : Word)
  /-- OPC 0x04, `reset` (R133): a new session, not the hardware reset. -/
  | reset
  /-- OPC 0x05, `update_imm n, V` (R134): `nm1` is IMM[1:0], the byte count minus one, and `v` holds the n bytes,
  the first in the low byte; its bits above the n bytes are zero in a well-formed command. -/
  | updateImm (nm1 : BitVec 2) (v : Word)
  /-- OPC 0x06, `update_buf OFF, LEN` (R135). -/
  | updateBuf (off : Half) (len : Word)
  /-- OPC 0x07, `finalize` (R160). -/
  | finalize
  /-- OPC 0x08, `write_buf A, B` (R176). -/
  | writeBuf (a : Half) (b : Byte)
  /-- OPC 0x09, `write_buf4 A, W` (R177). -/
  | writeBuf4 (a : Half) (w : Word)
  /-- OPC 0x0A, `set_buf_len L` (R178). -/
  | setBufLen (l : Word)
  /-- OPC 0x0B, `read_reg IDX` (R180). -/
  | readReg (idx : Half)
  /-- OPC 0x0C, `read_buf A` (R179). -/
  | readBuf (a : Half)
  /-- OPC 0x0D, `clear_err` (R181). -/
  | clearErr
deriving DecidableEq, Repr

end Sys2Proof
end

