-- ==== Sys2Proof/WellFormed.lean ====
section
/-! DEFINITION. Which terms of Instr are commands the encoding can carry. Every operand but one fills its field; the
one check is that of `update_imm n, V`: V < 2^(8n) (R89). -/

namespace Sys2Proof

/-- The operand ranges of R89, for the operands whose type does not give them. -/
def Instr.wf : Instr → Bool
  | .nop => true
  | .setPoly _ => true
  | .buildTable => true
  | .setSeed _ => true
  | .reset => true
  | .updateImm nm1 v => decide (v.toNat < 2 ^ (8 * Machine.byteCount nm1))
  | .updateBuf _ _ => true
  | .finalize => true
  | .writeBuf _ _ => true
  | .writeBuf4 _ _ => true
  | .setBufLen _ => true
  | .readReg _ => true
  | .readBuf _ => true
  | .clearErr => true

end Sys2Proof
end

