-- ==== Sys2Proof/Decode.lean ====
section
/-! DEFINITION. Decoding (R86), total on every pair of words and rejecting by name, and after it the encoder (R89).
CMD alone decides whether a command is legal; ARG only supplies operands. -/

namespace Sys2Proof

/-- Why a CMD word is illegal: the four cases of R87. The block reports one code, ILLEGAL, for all four; the names are
the model's (log 13). -/
inductive IllegalWord where
  /-- RSV is non-zero. -/
  | reservedFieldNotZero
  /-- OPC is 0x0E to 0xFF. -/
  | reservedOpcode
  /-- A Z-form opcode has IMM non-zero. -/
  | immediateNotZero
  /-- `update_imm` has IMM[15:2] non-zero. -/
  | countFieldNotZero
deriving DecidableEq, Repr

/-- A Z-form command: IMM must be zero (R82). -/
def decodeZ (imm : Half) (i : Instr) : Except IllegalWord Instr :=
  if imm = 0#16 then .ok i else .error .immediateNotZero

/-- The N-form command `update_imm`: IMM[15:2] must be zero, n = IMM[1:0] + 1, and ARG[31:8n] is ignored
(R82, R83, R84). -/
def decodeN (imm : Half) (arg : Word) : Except IllegalWord Instr :=
  if Machine.immCountRest imm = 0#14 then
    .ok (.updateImm (Machine.immCount imm) (Machine.lowBytes (Machine.byteCount (Machine.immCount imm)) arg))
  else .error .countFieldNotZero

/-- The opcode map (R85) on the fields of CMD and on ARG. -/
def decodeFields (opc : Byte) (imm : Half) (arg : Word) : Except IllegalWord Instr :=
  match opc.toNat with
  | 0x00 => decodeZ imm .nop
  | 0x01 => decodeZ imm (.setPoly arg)
  | 0x02 => decodeZ imm .buildTable
  | 0x03 => decodeZ imm (.setSeed arg)
  | 0x04 => decodeZ imm .reset
  | 0x05 => decodeN imm arg
  | 0x06 => .ok (.updateBuf imm arg)
  | 0x07 => decodeZ imm .finalize
  | 0x08 => .ok (.writeBuf imm (Machine.byteOf arg 0))
  | 0x09 => .ok (.writeBuf4 imm arg)
  | 0x0A => decodeZ imm (.setBufLen arg)
  | 0x0B => .ok (.readReg imm)
  | 0x0C => .ok (.readBuf imm)
  | 0x0D => decodeZ imm .clearErr
  | _ => .error .reservedOpcode

/-- decode(CMD), with the operands of ARG (R83, R86). -/
def decode (c : Command) : Except IllegalWord Instr :=
  if Machine.cmdRsv c.cmd ≠ 0#8 then .error .reservedFieldNotZero
  else decodeFields (Machine.cmdOpc c.cmd) (Machine.cmdImm c.cmd) c.arg

/-- The words of a command as the assembler writes them, with 0 in every ignored ARG bit (R89). -/
def encode : Instr → Command
  | .nop => ⟨Machine.cmdWord 0x00#8 0#16, 0#32⟩
  | .setPoly p => ⟨Machine.cmdWord 0x01#8 0#16, p⟩
  | .buildTable => ⟨Machine.cmdWord 0x02#8 0#16, 0#32⟩
  | .setSeed s => ⟨Machine.cmdWord 0x03#8 0#16, s⟩
  | .reset => ⟨Machine.cmdWord 0x04#8 0#16, 0#32⟩
  | .updateImm nm1 v => ⟨Machine.cmdWord 0x05#8 (nm1.setWidth 16), v⟩
  | .updateBuf off len => ⟨Machine.cmdWord 0x06#8 off, len⟩
  | .finalize => ⟨Machine.cmdWord 0x07#8 0#16, 0#32⟩
  | .writeBuf a b => ⟨Machine.cmdWord 0x08#8 a, b.setWidth 32⟩
  | .writeBuf4 a w => ⟨Machine.cmdWord 0x09#8 a, w⟩
  | .setBufLen l => ⟨Machine.cmdWord 0x0A#8 0#16, l⟩
  | .readReg idx => ⟨Machine.cmdWord 0x0B#8 idx, 0#32⟩
  | .readBuf a => ⟨Machine.cmdWord 0x0C#8 a, 0#32⟩
  | .clearErr => ⟨Machine.cmdWord 0x0D#8 0#16, 0#32⟩

/-- The two words of a bit pattern numbered as the opcode table numbers it: CMD is bits 31..0 and ARG bits 63..32,
and every bit at or above nbits is zero (log 12). -/
def tableCommand (nbits w : Nat) : Command :=
  ⟨BitVec.ofNat 32 (w % 2 ^ nbits), BitVec.ofNat 32 (w % 2 ^ nbits / 2 ^ 32)⟩

/-- The command the decoder reads from a bit pattern numbered as the opcode table numbers it. -/
def decodeTableWord (nbits w : Nat) : Option Instr :=
  match decode (tableCommand nbits w) with
  | .ok i => some i
  | .error _ => none

end Sys2Proof
end

