-- ==== Sys2Proof/Config.lean ====
section
/-! DEFINITION. What one implementation of the block fixes (R7): the parameters BUF_SIZE and HOST_BINDING, both OPEN
in the spec. A machine carries its configuration in State and no step changes it, so a statement about every state is
a statement about every BUF_SIZE (log 3) and every binding (log 4). The spec leaves no value free, so there is no
uninterpreted constant here ("Nothing in the block is any value", 93_implementation_defined.md). -/

namespace Sys2Proof

/-- HOST_BINDING: the bus the block sits on, its base address and its clock (R7, R61). No rule of the block reads it. -/
structure HostBinding where
  bus : String
  baseAddress : Nat
  clockHz : Nat
deriving DecidableEq, Repr

/-- The OPEN parameters of R7. BUF_SIZE is the 16-bit value that CONFIG[15:0] shows (R36). -/
structure Config where
  bufSize : Half
  hostBinding : HostBinding
deriving DecidableEq, Repr

/-- 1 <= BUF_SIZE <= 65535 (R7); the upper bound is the width of the field. -/
abbrev Config.wf (c : Config) : Prop := 1 ≤ c.bufSize.toNat

/-- The reference configuration, BUF_SIZE = 256 (R7). DESIGN CHOICE: the host binding is an empty one (log 3, log 4);
safe, since no statement rests on either. -/
def Config.reference : Config := ⟨256#16, ⟨"", 0, 0⟩⟩

end Sys2Proof
end

