-- ==== Sys2Proof/Machine/Crc.lean ====
section
/-! DEFINITION. The algorithm of the three units: the table function of the table builder (R110, R111) and the fold of
the streaming engine (R130, R131). Operators as R9 gives them: logical shifts, exclusive or, 32-bit results. -/

namespace Sys2Proof.Machine

/-- The lookup table: 256 entries of 32 bits (R7, R29). -/
structure Table where
  entries : List Word
  size : entries.length = 256
deriving DecidableEq, Repr

/-- TABLE[i], for a byte value i (R10). -/
def tableAt (T : Table) (i : Byte) : Word :=
  T.entries[i.toNat]'(by rw [T.size]; exact i.isLt)

/-- The default polynomial (R7). -/
def defaultPoly : Word := 0xEDB88320#32

/-- The default seed (R7). -/
def defaultSeed : Word := 0xFFFFFFFF#32

/-- One of the 8 iterations of R110: the shift comes before the exclusive or, and the bit tested is the low bit before
the shift. -/
def entryStep (P c : Word) : Word := if c.getLsbD 0 then (c >>> 1) ^^^ P else c >>> 1

/-- k iterations of R110 on the running entry c. -/
def entrySteps (P : Word) : Nat → Word → Word
  | 0, c => c
  | k + 1, c => entrySteps P k (entryStep P c)

/-- entry(P, i) (R110). -/
def entry (P : Word) (i : Byte) : Word := entrySteps P 8 (i.setWidth 32)

/-- table_of(P): entry(P, 0) .. entry(P, 255) in index order (R111). -/
def tableOf (P : Word) : Table :=
  ⟨(List.range 256).map fun i => entry P (BitVec.ofNat 8 i), by simp⟩

/-- fold(T, c, b) = (c >> 8) xor T[(zext_32(b) xor c) & 0xFF] (R130). -/
def fold (T : Table) (c : Word) (b : Byte) : Word :=
  (c >>> 8) ^^^ tableAt T (((b.setWidth 32 ^^^ c) &&& 0xFF#32).setWidth 8)

/-- fold*(T, c, s): the bytes of s folded in order (R131). -/
def foldAll (T : Table) : Word → List Byte → Word
  | c, [] => c
  | c, b :: s => foldAll T (fold T c b) s

end Sys2Proof.Machine
end

