-- ==== Sys2Proof/Machine/Memory.lean ====
section
/-! DEFINITION. The buffer BUF as a sparse list of address and byte pairs in one canonical form: addresses strictly
rising, and no entry equal to what an unlisted address reads as, which is 0x00, the reset contents (R32, R251; log 15).
Wider accesses are built from single bytes here, so the byte order is decided once (R51, R52). -/

namespace Sys2Proof.Machine

/-- The contents of a byte-addressed memory. -/
abbrev Memory := List Host.Cell

/-- What an address that nothing has written reads as: BUF[a] = 0x00 for every a after reset (R251). -/
def blankByte : Byte := 0x00#8

/-- The canonical form. -/
abbrev Memory.wf (m : Memory) : Prop :=
  m.Pairwise (fun c d => c.1 < d.1) ∧ ∀ c ∈ m, c.2 ≠ blankByte

/-- Read of one byte. -/
def Memory.readByte : Memory → Nat → Byte
  | [], _ => blankByte
  | (k, v) :: m, a => if k = a then v else Memory.readByte m a

/-- An entry at the head of a memory whose addresses lie above it, unless its byte is the blank one. -/
def Memory.consByte (a : Nat) (b : Byte) (m : Memory) : Memory :=
  if b = blankByte then m else (a, b) :: m

/-- Write of one byte, keeping the canonical form. -/
def Memory.writeByte : Memory → Nat → Byte → Memory
  | [], a, b => Memory.consByte a b []
  | (k, v) :: m, a, b =>
    if a < k then Memory.consByte a b ((k, v) :: m)
    else if a = k then Memory.consByte a b m
    else (k, v) :: Memory.writeByte m a b

/-- The n bytes from address a on, in increasing address order (R10, MemRead). -/
def Memory.readBytes (m : Memory) (a n : Nat) : List Byte := (List.range' a n).map (Memory.readByte m)

/-- Writes of consecutive bytes from address a on (R10, MemWrite). -/
def Memory.writeBytes : Memory → Nat → List Byte → Memory
  | m, _, [] => m
  | m, a, b :: bs => Memory.writeBytes (Memory.writeByte m a b) (a + 1) bs

end Sys2Proof.Machine
end

