-- ==== Sys2Proof/Machine/State.lean ====
section
/-! DEFINITION. The state of the block: every element of 10_state.md, the parameters of R7, and the command port. The
block has no general registers (R20), no program counter (R21), no arithmetic flags (R22) and no hidden state (R39). -/

namespace Sys2Proof.Machine

/-- The machine stops with a fault. -/
inductive Fault where
  /-- Raised by `update_buf` alone, when it would read the buffer at or above BUF_SIZE, where there is no byte (R32).
  Only a state with BUF_LEN > BUF_SIZE gets here, and the spec says that BUF_LEN <= BUF_SIZE always (R33). Safe:
  no run from reset reaches it, and a claim about a next state is not helped by it (log 7). -/
  | bufferHole
deriving DecidableEq, Repr

/-- The model gives an instruction no meaning. -/
inductive Refusal where
  /-- Raised by the dispatcher for a command without a meaning. Every command has one, so nothing raises it. Safe. -/
  | notModelled (mnemonic : String)
deriving DecidableEq, Repr

/-- PHASE (R28). The 2-bit value 3 is never taken, and this type cannot hold it (log 6). -/
inductive Phase where
  /-- OPEN: no byte folded since the last `reset` or hardware reset. -/
  | opened
  /-- ACTIVE: at least one byte folded since then, and not finalized. -/
  | active
  /-- FINAL: finalized since the last `reset` or hardware reset. -/
  | final
deriving DecidableEq, Repr

/-- The errors a command is rejected with (R220). -/
inductive ErrorKind where
  /-- ILLEGAL: the CMD word is not a command. -/
  | illegal
  /-- RANGE: an offset, length or address is outside its bound. -/
  | range
  /-- CLOSED: an update in a finalized session. -/
  | closed
  /-- TABLE_IN_USE: a build would change the table of an active session. -/
  | tableInUse
  /-- BADREG: a read of an unmapped register index. -/
  | badReg
deriving DecidableEq, Repr

/-- The response to one command: STATUS and DATA (R80, R92). -/
structure Response where
  status : Nibble
  data : Word
deriving DecidableEq, Repr

/-- What reaches the block from outside, one entry for each thing it takes. -/
inductive PortInput where
  /-- A command, offered until the port accepts it (R63, R255). -/
  | command (c : Command)
  /-- `rst_n` asserted (R250), with the command that was in flight then, if any; it is abandoned. -/
  | hardwareReset (inFlight : Option Command)
deriving DecidableEq, Repr

/-- The whole state (10_state.md section 1), with the parameters and the port. -/
structure State where
  /-- The OPEN parameters (R7); no step changes them. -/
  cfg : Config
  /-- POLY (R23): the polynomial the next `build_table` will use. -/
  poly : Word
  /-- SEED (R24): the register's value at the next `reset`. -/
  seed : Word
  /-- CRC (R25): the engine register. -/
  crc : Word
  /-- RESULT (R26): the finalizer's output. -/
  result : Word
  /-- PHASE (R28). -/
  phase : Phase
  /-- TABLE (R29). -/
  table : Table
  /-- TBL_POLY (R30): the polynomial TABLE was built from. -/
  tblPoly : Word
  /-- BUF (R32). -/
  buf : Memory
  /-- BUF_LEN (R33). -/
  bufLen : Half
  /-- ERR (R35). -/
  err : Bool
  /-- ERR_CODE (R35). -/
  errCode : Nibble
  /-- The model's: what is offered to the port and not yet taken, oldest first (R63, R255; log 1). -/
  inputs : List PortInput
  /-- The model's: the responses given, oldest first (R263; log 2). -/
  responses : List Response
deriving DecidableEq, Repr

/-- BUF_SIZE as a number (R7). -/
abbrev State.bufSize (s : State) : Nat := s.cfg.bufSize.toNat

/-- Every element at its reset value (R251), for given parameters and a given port. The default table is already held:
the boot build has no step of its own (R252). -/
def State.resetWith (cfg : Config) (inputs : List PortInput) (responses : List Response) : State where
  cfg := cfg
  poly := defaultPoly
  seed := defaultSeed
  crc := defaultSeed
  result := 0#32
  phase := .opened
  table := tableOf defaultPoly
  tblPoly := defaultPoly
  buf := []
  bufLen := 0#16
  err := false
  errCode := 0#4
  inputs := inputs
  responses := responses

/-- The machine right after reset (R251), in the reference configuration (R7; log 3), with nothing offered to the port
and nothing answered yet (log 1, log 2). -/
def State.reset : State := State.resetWith Config.reference [] []

/-- What one step, or one command's meaning, answers. -/
abbrev Result := Host.Outcome State Fault Refusal

end Sys2Proof.Machine
end

