-- ==== Sys2Proof/Machine/Flags.lean ====
section
/-! DEFINITION. The status state. The block has no arithmetic flags (R22); its only status is PHASE (R28) and the error
record ERR and ERR_CODE (R35), shown together in the STATUS view (R34). -/

namespace Sys2Proof.Machine

/-- The value of PHASE: 0 OPEN, 1 ACTIVE, 2 FINAL (R28). -/
def phaseCode : Phase → BitVec 2
  | .opened => 0#2
  | .active => 1#2
  | .final => 2#2

/-- The STATUS code OK (R220). -/
def okCode : Nibble := 0#4

/-- The code of an error (R220). -/
def errorCode : ErrorKind → Nibble
  | .illegal => 1#4
  | .range => 2#4
  | .closed => 3#4
  | .tableInUse => 4#4
  | .badReg => 5#4

/-- A rejection recorded: ERR <- 1, and ERR_CODE <- k if ERR was 0 (R35, R223). -/
def State.recordError (e : ErrorKind) (s : State) : State :=
  { s with err := true, errCode := if s.err then s.errCode else errorCode e }

/-- The error record cleared (R35, R181). -/
def State.clearRecord (s : State) : State :=
  { s with err := false, errCode := 0#4 }

/-- STATUS == ERR_CODE in bits 7:4, 0 in bit 3, ERR in bit 2, PHASE in bits 1:0, zeros above (R34). -/
def State.statusView (s : State) : Word :=
  0#24 ++ s.errCode ++ 0#1 ++ BitVec.ofBool s.err ++ phaseCode s.phase

end Sys2Proof.Machine
end

