-- ==== Sys2Proof/Machine/Ops.lean ====
section
/-! DEFINITION. The operations the command meanings share: completing a command, REJECTING one (the block's form of
taking an exception: there is no trap entry and no return from one, R226, R227), the buffer, the digest and register
views, and the hardware reset. -/

namespace Sys2Proof.Machine

/-- The response to the command being performed is given (R92). -/
def State.respond (status : Nibble) (data : Word) (s : State) : State :=
  { s with responses := s.responses ++ [⟨status, data⟩] }

/-- The command completes with status OK and the given data (R10). -/
def complete (data : Word) (s : State) : Result := .next (s.respond okCode data)

/-- The command is rejected: no effect but the error record, and the response is (code, 0) (R10, R222, R223). Control
is not transferred and nothing is saved (R226); the next command is performed on its own (R227). -/
def reject (e : ErrorKind) (s : State) : Result :=
  .next ((s.recordError e).respond (errorCode e) 0#32)

/-- The illegal command: decode comes first, and nothing else is checked (R87, R224). -/
def rejectIllegal (_why : IllegalWord) (s : State) : Result := reject .illegal s

/-- MemRead(a, n) (R10): there is no byte at or above BUF_SIZE (R32), so such a read answers none (log 7). -/
def State.memRead (s : State) (a n : Nat) : Option (List Byte) :=
  if a + n ≤ s.bufSize then some (s.buf.readBytes a n) else none

/-- MemWrite(a, n, v) (R10): byte j of v to BUF[a+j], j = 0..n-1. The caller has checked the bounds. -/
def State.memWrite (a n : Nat) (v : Word) (s : State) : State :=
  { s with buf := s.buf.writeBytes a (bytesOf n v) }

/-- DIGESTk, k = 0..3: byte 0 is RESULT[31:24], byte 3 is RESULT[7:0] (R27, R161). -/
def State.digest (s : State) (k : Nat) : Byte := byteOf s.result (3 - k)

/-- CONFIG[15:0] = BUF_SIZE, CONFIG[31:16] = 0 (R36). -/
def State.configView (s : State) : Word := s.cfg.bufSize.setWidth 32

/-- The register index map (R38): none at an unmapped index. -/
def State.readIndex (s : State) (idx : Half) : Option Word :=
  match idx.toNat with
  | 0x0000 => some s.poly
  | 0x0001 => some s.seed
  | 0x0002 => some s.crc
  | 0x0003 => some s.result
  | 0x0004 => some ((s.digest 0).setWidth 32)
  | 0x0005 => some ((s.digest 1).setWidth 32)
  | 0x0006 => some ((s.digest 2).setWidth 32)
  | 0x0007 => some ((s.digest 3).setWidth 32)
  | 0x0008 => some s.statusView
  | 0x0009 => some s.tblPoly
  | 0x000A => some (s.bufLen.setWidth 32)
  | 0x000B => some s.configView
  | n => if 0x0100 ≤ n ∧ n ≤ 0x01FF then some (tableAt s.table (BitVec.ofNat 8 (n - 0x0100))) else none

/-- The bytes folded into the register with the held table (R130, R134, R135). -/
def State.foldBytes (bs : List Byte) (s : State) : State :=
  { s with crc := foldAll s.table s.crc bs }

/-- The first entry offered to the port is taken; `rest` is what stays offered (R63). -/
def State.accept (rest : List PortInput) (s : State) : State := { s with inputs := rest }

/-- Hardware reset (R250, R251): every element to its reset value, no response. The parameters are the machine's, the
commands still offered stay offered, and the responses already given stay given (log 2, log 5). -/
def State.hardwareReset (s : State) : State := State.resetWith s.cfg s.inputs s.responses

end Sys2Proof.Machine
end

