-- ==== Sys2Proof/Machine/BufferControl.lean ====
section
/-! DEFINITION. The buffer and control commands: nop (R175), write_buf (R176), write_buf4 (R177), set_buf_len (R178),
read_buf (R179), read_reg (R180), clear_err (R181). -/

namespace Sys2Proof.Machine

/-- `nop`: no state change (R175). -/
def execNop (s : State) : Result := complete 0#32 s

/-- `write_buf A, B`: BUF[A] <- B; RANGE when A >= BUF_SIZE (R176). -/
def execWriteBuf (a : Half) (b : Byte) (s : State) : Result :=
  if a.toNat ≥ s.bufSize then reject .range s
  else complete 0#32 (s.memWrite a.toNat 1 (b.setWidth 32))

/-- `write_buf4 A, W`: BUF[A+j] <- W[8j+7:8j], j = 0..3, A of any alignment (R56); RANGE when A + 4 > BUF_SIZE, as
naturals, with none of the four written (R177). -/
def execWriteBuf4 (a : Half) (w : Word) (s : State) : Result :=
  if a.toNat + 4 > s.bufSize then reject .range s
  else complete 0#32 (s.memWrite a.toNat 4 w)

/-- `set_buf_len L`: BUF_LEN <- L[15:0]; RANGE when L > BUF_SIZE (R178). -/
def execSetBufLen (l : Word) (s : State) : Result :=
  if l.toNat > s.bufSize then reject .range s
  else complete 0#32 { s with bufLen := l.setWidth 16 }

/-- `read_reg IDX`: responds with the value at the index; BADREG at an unmapped one (R180). -/
def execReadReg (idx : Half) (s : State) : Result :=
  match s.readIndex idx with
  | some v => complete v s
  | none => reject .badReg s

/-- `read_buf A`: responds with BUF[A], zero-extended; RANGE when A >= BUF_SIZE (R179). -/
def execReadBuf (a : Half) (s : State) : Result :=
  if a.toNat ≥ s.bufSize then reject .range s
  else complete ((s.buf.readByte a.toNat).setWidth 32) s

/-- `clear_err`: ERR <- 0 and ERR_CODE <- 0 (R181). -/
def execClearErr (s : State) : Result := complete 0#32 s.clearRecord

end Sys2Proof.Machine
end

