-- ==== Sys2Proof/Machine/Finalizer.lean ====
section
/-! DEFINITION. The finalizer's command: finalize (R160). -/

namespace Sys2Proof.Machine

/-- `finalize`: RESULT <- ~CRC and PHASE <- FINAL, in every phase; CRC is not written (R160). -/
def execFinalize (s : State) : Result := complete 0#32 { s with result := ~~~s.crc, phase := .final }

end Sys2Proof.Machine
end

