-- ==== Sys2Proof/Machine/StreamingEngine.lean ====
section
/-! DEFINITION. The streaming engine's commands: set_seed (R132), reset (R133), update_imm (R134), update_buf (R135).
The phase check comes before the operand check (R224). -/

namespace Sys2Proof.Machine

/-- `set_seed S`: SEED <- ARG, in every phase; CRC does not change (R132). -/
def execSetSeed (v : Word) (s : State) : Result := complete 0#32 { s with seed := v }

/-- `reset`: CRC <- SEED and PHASE <- OPEN, in every phase (R133). -/
def execReset (s : State) : Result := complete 0#32 { s with crc := s.seed, phase := .opened }

/-- `update_imm n, V`: folds bytes 0..n-1 of V, and PHASE <- ACTIVE; CLOSED in FINAL (R134). -/
def execUpdateImm (nm1 : BitVec 2) (v : Word) (s : State) : Result :=
  if s.phase = .final then reject .closed s
  else complete 0#32 { s.foldBytes (bytesOf (byteCount nm1) v) with phase := .active }

/-- `update_buf OFF, LEN`: folds BUF[OFF] .. BUF[OFF+LEN-1] in that order, and PHASE <- ACTIVE when LEN > 0; CLOSED in
FINAL; RANGE when OFF + LEN > BUF_LEN, as naturals (R135). -/
def execUpdateBuf (off : Half) (len : Word) (s : State) : Result :=
  if s.phase = .final then reject .closed s
  else if off.toNat + len.toNat > s.bufLen.toNat then reject .range s
  else
    match s.memRead off.toNat len.toNat with
    | none => .fault .bufferHole
    | some bs => complete 0#32 { s.foldBytes bs with phase := if len.toNat > 0 then .active else s.phase }

end Sys2Proof.Machine
end

