-- ==== Sys2Proof/Machine/TableBuilder.lean ====
section
/-! DEFINITION. The table builder's commands: set_poly (R112) and build_table (R113). -/

namespace Sys2Proof.Machine

/-- `set_poly P`: POLY <- ARG, in every phase; the held table does not change (R112). -/
def execSetPoly (p : Word) (s : State) : Result := complete 0#32 { s with poly := p }

/-- `build_table`: all 256 entries and TBL_POLY in one step; refused when it would change the table of an ACTIVE
session (R113). The memo skip of R114 has no effect on state, so there is none here (log 9). -/
def execBuildTable (s : State) : Result :=
  if s.phase = .active ∧ s.poly ≠ s.tblPoly then reject .tableInUse s
  else complete 0#32 { s with table := tableOf s.poly, tblPoly := s.poly }

end Sys2Proof.Machine
end

