-- ==== Sys2Proof/Machine/Dispatch.lean ====
section
/-! DEFINITION. One arm per command: the meaning that performs it. -/

namespace Sys2Proof.Machine

def exec (i : Instr) (s : State) : Host.Outcome State Fault Refusal :=
  match i with
  | .nop => Sys2Proof.Machine.execNop s
  | .setPoly p => Sys2Proof.Machine.execSetPoly p s
  | .buildTable => Sys2Proof.Machine.execBuildTable s
  | .setSeed v => Sys2Proof.Machine.execSetSeed v s
  | .reset => Sys2Proof.Machine.execReset s
  | .updateImm nm1 v => Sys2Proof.Machine.execUpdateImm nm1 v s
  | .updateBuf off len => Sys2Proof.Machine.execUpdateBuf off len s
  | .finalize => Sys2Proof.Machine.execFinalize s
  | .writeBuf a b => Sys2Proof.Machine.execWriteBuf a b s
  | .writeBuf4 a w => Sys2Proof.Machine.execWriteBuf4 a w s
  | .setBufLen l => Sys2Proof.Machine.execSetBufLen l s
  | .readReg idx => Sys2Proof.Machine.execReadReg idx s
  | .readBuf a => Sys2Proof.Machine.execReadBuf a s
  | .clearErr => Sys2Proof.Machine.execClearErr s

end Sys2Proof.Machine
end

