-- ==== Sys2Proof/Machine/Transaction.lean ====
section
/-! DEFINITION. One transaction (R11): the two words decoded, and the command performed or rejected. -/

namespace Sys2Proof.Machine

/-- One transaction on a state whose port has taken the command: decode, then perform or reject (R11, R224). -/
def perform (c : Command) (s : State) : Host.Outcome State Fault Refusal :=
  match decode c with
  | .ok i => exec i s
  | .error why => rejectIllegal why s

end Sys2Proof.Machine
end

