-- ==== Sys2Proof/Machine/Step.lean ====
section
/-! DEFINITION. One step of the machine: the port takes the first entry offered to it and performs it whole (R11, R59,
R63). The block has no program counter and fetches nothing (R21); its program is what the host offers. -/

namespace Sys2Proof.Machine

/-- One step. With nothing offered the block is idle and keeps its state (R233, R263). -/
def step (s : State) : Host.Outcome State Fault Refusal :=
  match s.inputs with
  | [] => .next s
  | .hardwareReset _ :: rest => .next (s.accept rest).hardwareReset
  | .command c :: rest => perform c (s.accept rest)

/-- s with the command of a table word offered first, ahead of what is offered already (log 12). -/
def State.withFetchWord (s : State) (nbits w : Nat) : State :=
  { s with inputs := .command (tableCommand nbits w) :: s.inputs }

end Sys2Proof.Machine
end

