-- ==== Sys2Proof/Machine/Facade.lean ====
section
/-! DEFINITION. The host-side sequences the spec gives over the block's commands: the pseudo-instructions (R90), the
one-shot facade (R200 to R203), the streaming API (R204) and the string helper's last step (R205, R12). Each is a list
of commands; nothing here adds to what a command does. -/

namespace Sys2Proof.Machine

/-- `update_byte B` (R90). -/
def updateByte (b : Byte) : List Instr := [.updateImm 0#2 (packWord b 0#8 0#8 0#8)]

/-- `select_poly P` (R90). -/
def selectPoly (p : Word) : List Instr := [.setPoly p, .buildTable]

/-- `start S` (R90). -/
def startSession (s : Word) : List Instr := [.setSeed s, .reset]

/-- `read_result` (R90). -/
def readResult : List Instr := [.readReg 0x0003#16]

/-- `read_digest` (R90). -/
def readDigest : List Instr := [.readReg 0x0004#16, .readReg 0x0005#16, .readReg 0x0006#16, .readReg 0x0007#16]

/-- `load_bytes A, b0, b1, ...` (R90): full groups of four with `write_buf4`, the rest with `write_buf`. -/
def loadBytes : Nat → List Byte → List Instr
  | _, [] => []
  | a, b0 :: b1 :: b2 :: b3 :: bs => .writeBuf4 (BitVec.ofNat 16 a) (packWord b0 b1 b2 b3) :: loadBytes (a + 4) bs
  | a, b :: bs => .writeBuf (BitVec.ofNat 16 a) b :: loadBytes (a + 1) bs

/-- `update_bytes b0, b1, ...` (R90): groups of up to four with `update_imm`. -/
def updateBytes : List Byte → List Instr
  | [] => []
  | [b0] => [.updateImm 0#2 (packWord b0 0#8 0#8 0#8)]
  | [b0, b1] => [.updateImm 1#2 (packWord b0 b1 0#8 0#8)]
  | [b0, b1, b2] => [.updateImm 2#2 (packWord b0 b1 b2 0#8)]
  | b0 :: b1 :: b2 :: b3 :: bs => .updateImm 3#2 (packWord b0 b1 b2 b3) :: updateBytes bs

/-- A chunk through the buffer: load, set the length, fold (R200, R202). -/
def foldThroughBuffer (bs : List Byte) : List Instr :=
  loadBytes 0 bs ++ [.setBufLen (BitVec.ofNat 32 bs.length), .updateBuf 0#16 (BitVec.ofNat 32 bs.length)]

/-- The start of every compute sequence (R200): seed and reset before the polynomial and the build, so that the build
is never refused. -/
def openSession (p s : Word) : List Instr := startSession s ++ selectPoly p

/-- `compute(P, S, buffer)` (R200), for a buffer of at most BUF_SIZE bytes. -/
def compute (p s : Word) (bs : List Byte) : List Instr :=
  openSession p s ++ foldThroughBuffer bs ++ [.finalize] ++ readResult

/-- `compute` where the table of P is already held, so `build_table` is left out (R200). -/
def computeReusing (p s : Word) (bs : List Byte) : List Instr :=
  startSession s ++ [.setPoly p] ++ foldThroughBuffer bs ++ [.finalize] ++ readResult

/-- `compute(buffer)` and `compute(seed, buffer)` (R201). -/
def computeDefault (bs : List Byte) : List Instr := compute defaultPoly defaultSeed bs
def computeSeeded (s : Word) (bs : List Byte) : List Instr := compute defaultPoly s bs

/-- `compute(buffer)` from the reset state, where the polynomial, the seed and the table are the defaults already and
`set_seed`, `set_poly` and `build_table` are left out (R201). -/
def computeAtReset (bs : List Byte) : List Instr :=
  .reset :: foldThroughBuffer bs ++ [.finalize] ++ readResult

/-- The form without the buffer, for any number of bytes (R202). -/
def computeImmediate (p s : Word) (bs : List Byte) : List Instr :=
  openSession p s ++ updateBytes bs ++ [.finalize] ++ readResult

/-- The form in chunks through the buffer, each of at most BUF_SIZE bytes (R202). -/
def computeChunked (p s : Word) (chunks : List (List Byte)) : List Instr :=
  openSession p s ++ chunks.flatMap foldThroughBuffer ++ [.finalize] ++ readResult

/-- The source's streaming API (R204): create an engine, update(bytes, offset, length), finalize and read the
digest. Its reset() is the command `reset`. -/
def engineCreate (p s : Word) : List Instr := startSession s ++ selectPoly p
def engineUpdate (bs : List Byte) (off : Half) (len : Word) : List Instr :=
  loadBytes 0 bs ++ [.setBufLen (BitVec.ofNat 32 bs.length), .updateBuf off len]
def engineFinalize : List Instr := .finalize :: readDigest

/-- s32(v): v as a two's-complement number (R12); what the string helper returns of DATA (R205). -/
def s32 (v : Word) : Int := if v.toNat < 2 ^ 31 then v.toNat else (v.toNat : Int) - 2 ^ 32

end Sys2Proof.Machine
end

