-- ==== Sys2Proof/Machine/Assembler.lean ====
section
/-! DEFINITION. The assembler of R89 and the pseudo-instructions of R90, as the host runs it: one line of text to the
words of its commands, refusing an operand out of its range. Spacing and the case of hexadecimal digits are the
model's choice (log 14). The block's own checks do not rest on any of this (R89). -/

namespace Sys2Proof.Machine

/-- One line, with its operands as written (R89, R90). -/
inductive AsmLine where
  | blank
  | nop
  | setPoly (p : Nat)
  | buildTable
  | setSeed (s : Nat)
  | reset
  | updateImm (n v : Nat)
  | updateBuf (off len : Nat)
  | finalize
  | writeBuf (a b : Nat)
  | writeBuf4 (a w : Nat)
  | setBufLen (l : Nat)
  | readReg (idx : Nat)
  | readBuf (a : Nat)
  | clearErr
  | rawWords (c g : Nat)
  | updateByte (b : Nat)
  | selectPoly (p : Nat)
  | start (s : Nat)
  | readResult
  | readDigest
  | loadBytes (a : Nat) (bs : List Nat)
  | updateBytes (bs : List Nat)
deriving DecidableEq, Repr

/-- An operand that must be below 2^w (R89). -/
def asmOperand (w n : Nat) : Option (BitVec w) := if n < 2 ^ w then some (BitVec.ofNat w n) else none

/-- `update_imm n, V`: 1 <= n <= 4 and V < 2^(8n) (R89). -/
def asmUpdateImm (n v : Nat) : Option Instr :=
  if 1 ≤ n ∧ n ≤ 4 ∧ v < 2 ^ (8 * n) then some (.updateImm (BitVec.ofNat 2 (n - 1)) (BitVec.ofNat 32 v)) else none

/-- The `load_bytes` expansion with its addresses as numbers, so that one at or above 2^16 is refused (R89, R90). -/
def asmLoadBytes : Nat → List Byte → Option (List Instr)
  | _, [] => some []
  | a, b0 :: b1 :: b2 :: b3 :: bs => do
    let a16 ← asmOperand 16 a
    let rest ← asmLoadBytes (a + 4) bs
    some (.writeBuf4 a16 (packWord b0 b1 b2 b3) :: rest)
  | a, b :: bs => do
    let a16 ← asmOperand 16 a
    let rest ← asmLoadBytes (a + 1) bs
    some (.writeBuf a16 b :: rest)

/-- The commands of a line (R89, R90); none where an operand is out of its range. `.cmd` is not here: its words may be
no command. -/
def asmInstrs : AsmLine → Option (List Instr)
  | .blank => some []
  | .nop => some [.nop]
  | .setPoly p => do some [.setPoly (← asmOperand 32 p)]
  | .buildTable => some [.buildTable]
  | .setSeed s => do some [.setSeed (← asmOperand 32 s)]
  | .reset => some [.reset]
  | .updateImm n v => do some [← asmUpdateImm n v]
  | .updateBuf off len => do some [.updateBuf (← asmOperand 16 off) (← asmOperand 32 len)]
  | .finalize => some [.finalize]
  | .writeBuf a b => do some [.writeBuf (← asmOperand 16 a) (← asmOperand 8 b)]
  | .writeBuf4 a w => do some [.writeBuf4 (← asmOperand 16 a) (← asmOperand 32 w)]
  | .setBufLen l => do some [.setBufLen (← asmOperand 32 l)]
  | .readReg idx => do some [.readReg (← asmOperand 16 idx)]
  | .readBuf a => do some [.readBuf (← asmOperand 16 a)]
  | .clearErr => some [.clearErr]
  | .rawWords _ _ => none
  | .updateByte b => do some [← asmUpdateImm 1 b]
  | .selectPoly p => do some (selectPoly (← asmOperand 32 p))
  | .start s => do some (startSession (← asmOperand 32 s))
  | .readResult => some readResult
  | .readDigest => some readDigest
  | .loadBytes a bs => do asmLoadBytes a (← bs.mapM (asmOperand 8))
  | .updateBytes bs => do some (updateBytes (← bs.mapM (asmOperand 8)))

/-- The words of a line (R89): `.cmd C, G` sends any pair of words. -/
def assemble : AsmLine → Option (List Command)
  | .rawWords c g => do some [⟨← asmOperand 32 c, ← asmOperand 32 g⟩]
  | l => (asmInstrs l).map (List.map encode)

/-- A blank between the words of a line (log 14). -/
def asmIsSpace (c : Char) : Bool := c == ' ' || c == '\t'

/-- A word of the line without the blanks around it. -/
def asmTrim (s : List Char) : List Char :=
  ((s.dropWhile asmIsSpace).reverse.dropWhile asmIsSpace).reverse

/-- The pieces between commas. -/
def asmSplit : List Char → List (List Char)
  | [] => [[]]
  | c :: s =>
    if c = ',' then [] :: asmSplit s
    else
      match asmSplit s with
      | [] => [[c]]
      | w :: ws => (c :: w) :: ws

/-- One digit of a number in base 10 or 16. -/
def asmDigit (base : Nat) (c : Char) : Option Nat :=
  let n := c.toNat
  let d :=
    if 48 ≤ n ∧ n ≤ 57 then n - 48
    else if 65 ≤ n ∧ n ≤ 70 then n - 55
    else if 97 ≤ n ∧ n ≤ 102 then n - 87
    else base
  if d < base then some d else none

/-- The digits of a number, most significant first. -/
def asmDigits (base : Nat) : Nat → List Char → Option Nat
  | acc, [] => some acc
  | acc, c :: s => do asmDigits base (acc * base + (← asmDigit base c)) s

/-- A number: decimal, or hexadecimal with `0x` (R89). -/
def asmNumber (s : List Char) : Option Nat :=
  match s with
  | [] => none
  | '0' :: 'x' :: c :: rest => asmDigits 16 0 (c :: rest)
  | c :: rest => asmDigits 10 0 (c :: rest)

/-- The names `read_reg` takes for indices 0x0000 to 0x000B, in index order (R89). -/
def asmRegisterNames : List String :=
  ["POLY", "SEED", "CRC", "RESULT", "DIGEST0", "DIGEST1", "DIGEST2", "DIGEST3", "STATUS", "TBL_POLY", "BUF_LEN",
   "CONFIG"]

/-- The position of a name in a list of names. -/
def asmFind (s : List Char) : Nat → List String → Option Nat
  | _, [] => none
  | k, n :: ns => if s = n.toList then some k else asmFind s (k + 1) ns

/-- The operand of `read_reg`: a number, a register name, or `TABLE+i` with i <= 255 (R89). -/
def asmRegister (s : List Char) : Option Nat :=
  match asmFind s 0 asmRegisterNames with
  | some k => some k
  | none =>
    if s.take 6 = "TABLE+".toList then do
      let i ← asmNumber (s.drop 6)
      if i ≤ 255 then some (0x0100 + i) else none
    else asmNumber s

/-- The mnemonics of R89 and R90, in a fixed order. -/
def asmMnemonics : List String :=
  ["nop", "set_poly", "build_table", "set_seed", "reset", "update_imm", "update_buf", "finalize", "write_buf",
   "write_buf4", "set_buf_len", "read_reg", "read_buf", "clear_err", ".cmd", "update_byte", "select_poly", "start",
   "read_result", "read_digest", "load_bytes", "update_bytes"]

/-- A line from its mnemonic's position and the numbers of its operands (`read_reg` apart). -/
def asmBuild : Nat → List Nat → Option AsmLine
  | 0, [] => some .nop
  | 1, [p] => some (.setPoly p)
  | 2, [] => some .buildTable
  | 3, [s] => some (.setSeed s)
  | 4, [] => some .reset
  | 5, [n, v] => some (.updateImm n v)
  | 6, [off, len] => some (.updateBuf off len)
  | 7, [] => some .finalize
  | 8, [a, b] => some (.writeBuf a b)
  | 9, [a, w] => some (.writeBuf4 a w)
  | 10, [l] => some (.setBufLen l)
  | 11, [idx] => some (.readReg idx)
  | 12, [a] => some (.readBuf a)
  | 13, [] => some .clearErr
  | 14, [c, g] => some (.rawWords c g)
  | 15, [b] => some (.updateByte b)
  | 16, [p] => some (.selectPoly p)
  | 17, [s] => some (.start s)
  | 18, [] => some .readResult
  | 19, [] => some .readDigest
  | 20, a :: bs => some (.loadBytes a bs)
  | 21, bs => some (.updateBytes bs)
  | _, _ => none

/-- A line of text: a mnemonic, then its operands separated by commas; `;` begins a comment (R89). -/
def asmParse (line : List Char) : Option AsmLine :=
  let text := asmTrim (line.takeWhile (· != ';'))
  if text = [] then some .blank
  else do
    let mnemonic := text.takeWhile fun c => !asmIsSpace c
    let rest := asmTrim (text.drop mnemonic.length)
    let words := if rest = [] then [] else (asmSplit rest).map asmTrim
    let k ← asmFind mnemonic 0 asmMnemonics
    let numbers ← words.mapM (if k = 11 then asmRegister else asmNumber)
    asmBuild k numbers

/-- The words of one line of assembler text (R89). -/
def assembleLine (line : String) : Option (List Command) := (asmParse line.toList).bind assemble

end Sys2Proof.Machine
end

