-- ==== Sys2Proof/Machine/Timing.lean ====
section
/-! DEFINITION. The informative cycle counts of R261. No meaning reads them, and the state after a command does not
depend on them (log 10). -/

namespace Sys2Proof.Machine

/-- A response other than OK rejects its command (R13). -/
def rejected (r : Result) : Bool :=
  match r with
  | .next t =>
    match t.responses.getLast? with
    | some a => decide (a.status ≠ okCode)
    | none => false
  | .fault _ => false
  | .refused _ => false

/-- The cycles of an accepted command (R261); `skip` says whether the implementation takes the memo skip of R114 where
it may. -/
def acceptedCycles (skip : Bool) (s : State) : Instr → Nat
  | .nop => 1
  | .setPoly _ => 1
  | .buildTable => if skip ∧ s.poly = s.tblPoly then 1 else 256
  | .setSeed _ => 1
  | .reset => 1
  | .updateImm nm1 _ => byteCount nm1
  | .updateBuf _ len => 1 + len.toNat
  | .finalize => 1
  | .writeBuf _ _ => 1
  | .writeBuf4 _ _ => 1
  | .setBufLen _ => 1
  | .readReg _ => 1
  | .readBuf _ => 1
  | .clearErr => 1

/-- The cycles from a command's acceptance to its response (R261): 1 for any rejected command. -/
def referenceCycles (skip : Bool) (c : Command) (s : State) : Nat :=
  match decode c with
  | .error _ => 1
  | .ok i => if rejected (exec i s) then 1 else acceptedCycles skip s i

/-- The cycles of the boot build after `rst_n` is released (R261). -/
def bootCycles : Nat := 256

end Sys2Proof.Machine
end

