-- ==== Sys2Proof/Machine/Port.lean ====
section
/-! DEFINITION. The reference port of R262, one clock cycle at a time (informative in the spec; log 10): valid and
ready on the command, a response strobe of one cycle, the boot build after reset (R252) and the abandoned command
(R250). The block's own behaviour is `step`, whole, in the cycle of the response. -/

namespace Sys2Proof.Machine

/-- The input pins of one cycle (R262). -/
structure PortPins where
  rstN : Bool
  cmdValid : Bool
  command : Command
deriving DecidableEq, Repr

/-- The output pins of one cycle: cmd_ready, and the response in the one cycle in which rsp_valid is high (R262). The
spec gives rsp_status and rsp_data no value in other cycles, so there is none here. -/
structure PortOut where
  cmdReady : Bool
  response : Option Response
deriving DecidableEq, Repr

/-- What the spec leaves to the implementation: whether the memo skip is taken (R114), and whether cmd_ready is high
again in the response cycle ("may be", R262). -/
structure PortParams where
  skip : Bool
  eager : Bool
deriving DecidableEq, Repr

/-- The block with its port: the boot build's cycles left, and the command in flight with the cycles left until its
response. -/
structure PortState where
  block : State
  boot : Nat
  inFlight : Option (Command × Nat)
deriving DecidableEq, Repr

/-- What the port does with a command offered in a cycle in which cmd_ready is high: it is accepted (R262). -/
def portAccept (p : PortParams) (pins : PortPins) (s : State) : Option (Command × Nat) :=
  if pins.cmdValid then some (pins.command, referenceCycles p.skip pins.command s) else none

/-- The block after one entry of the port is performed. A stop would leave it as it is; none comes in a state that
satisfies the invariant. -/
def portPerform (i : PortInput) (s : State) : State :=
  match step { s with inputs := [i] } with
  | .next t => t
  | .fault _ => s
  | .refused _ => s

/-- One clock cycle: the output pins, the state after it, and what the block performed in it (R250, R252, R255,
R262). -/
def portCycle (p : PortParams) (s : PortState) (pins : PortPins) : PortOut × PortState × List PortInput :=
  if pins.rstN = false then
    let event := PortInput.hardwareReset (s.inFlight.map Prod.fst)
    (⟨false, none⟩, ⟨portPerform event s.block, bootCycles, none⟩, [event])
  else
    match s.boot with
    | b + 1 => (⟨false, none⟩, ⟨s.block, b, none⟩, [])
    | 0 =>
      match s.inFlight with
      | none => (⟨true, none⟩, ⟨s.block, 0, portAccept p pins s.block⟩, [])
      | some (c, n) =>
        if n ≤ 1 then
          let t := portPerform (.command c) s.block
          (⟨p.eager, t.responses.getLast?⟩, ⟨t, 0, if p.eager then portAccept p pins t else none⟩, [.command c])
        else (⟨false, none⟩, ⟨s.block, 0, some (c, n - 1)⟩, [])

/-- Cycles in sequence: the outputs of each, the state after them, and what the block performed in them. -/
def portRun (p : PortParams) : PortState → List PortPins → List PortOut × PortState × List PortInput
  | s, [] => ([], s, [])
  | s, pins :: more =>
    let (out, t, events) := portCycle p s pins
    let (outs, u, later) := portRun p t more
    (out :: outs, u, events ++ later)

end Sys2Proof.Machine
end

