-- ==== Sys2Proof/Safety.lean ====
section
/-! DEFINITION. What a state between commands satisfies, and the words claims about runs are made in. -/

namespace Sys2Proof

/-- An update command, `update_imm` or `update_buf`: what a chunk of a session's data is folded with (R136). -/
def Instr.isUpdate : Instr → Bool
  | .updateImm _ _ => true
  | .updateBuf _ _ => true
  | .nop | .setPoly _ | .buildTable | .setSeed _ | .reset | .finalize | .writeBuf _ _ | .writeBuf4 _ _
  | .setBufLen _ | .readReg _ | .readBuf _ | .clearErr => false

/-- The bytes an update command folds, in order (R134, R135); none for another command. -/
def Instr.updateData (buf : Machine.Memory) : Instr → List Byte
  | .updateImm nm1 v => (List.range (nm1.toNat + 1)).map fun j => v.extractLsb' (8 * j) 8
  | .updateBuf off len => (List.range len.toNat).map fun j => buf.readByte (off.toNat + j)
  | .nop | .setPoly _ | .buildTable | .setSeed _ | .reset | .finalize | .writeBuf _ _ | .writeBuf4 _ _
  | .setBufLen _ | .readReg _ | .readBuf _ | .clearErr => []

end Sys2Proof

namespace Sys2Proof.Machine

/-- What holds between any two commands, by the spec's own rules. Each field names the rule it comes from. -/
structure State.Inv (s : State) : Prop where
  /-- 1 <= BUF_SIZE (R7). -/
  config : s.cfg.wf
  /-- The buffer is in its canonical form (R32; log 15). -/
  bufWf : s.buf.wf
  /-- The buffer has no byte at or above BUF_SIZE (R32). -/
  bufBound : ∀ c ∈ s.buf, c.1 < s.bufSize
  /-- BUF_LEN <= BUF_SIZE (R33). -/
  bufLen : s.bufLen.toNat ≤ s.bufSize
  /-- TABLE[i] == entry(TBL_POLY, i) for every i (R31). -/
  table : s.table = tableOf s.tblPoly
  /-- ERR == 0 if and only if ERR_CODE == 0 (R35). -/
  record : s.err = false ↔ s.errCode = 0#4
  /-- ERR_CODE is one of the codes 0 to 5 (R220). -/
  code : s.errCode.toNat ≤ 5
  /-- In FINAL, RESULT is the complement of CRC: updates are refused there, so CRC has not changed (R160, R164). -/
  final : s.phase = .final → s.result = ~~~s.crc

/-- s after a command that was performed: its response is OK with the given data (R10, R92). -/
def answeredOk (data : Word) (s : State) : State := { s with responses := s.responses ++ [⟨0#4, data⟩] }

/-- s after a command that was rejected with a code: nothing but the error record changes, and the response is
(code, 0) (R35, R222, R223). -/
def rejectedWith (code : Nibble) (s : State) : State :=
  { s with
    err := true
    errCode := if s.err = false then code else s.errCode
    responses := s.responses ++ [⟨code, 0#32⟩] }

/-- Every word with this opcode, but the legal ones, is rejected with ILLEGAL in every state (R87). -/
def onlyLegalWords (opc : Byte) (legal : Word → Prop) : Prop :=
  ∀ (c : Command) (s : State), c.cmd.extractLsb' 24 8 = opc → ¬ legal c.cmd →
    perform c s = .next (rejectedWith 1#4 s)

/-- The ARG bits a command uses: the others are ignored (R84). -/
def usedArgBits : Instr → Word
  | .nop | .buildTable | .reset | .finalize | .readReg _ | .readBuf _ | .clearErr => 0x00000000#32
  | .setPoly _ | .setSeed _ | .updateBuf _ _ | .writeBuf4 _ _ | .setBufLen _ => 0xFFFFFFFF#32
  | .updateImm nm1 _ => BitVec.ofNat 32 (2 ^ (8 * (nm1.toNat + 1)) - 1)
  | .writeBuf _ _ => 0x000000FF#32

/-- An index of the register map (R38). -/
def mappedIndex (idx : Half) : Prop := idx.toNat ≤ 0x000B ∨ (0x0100 ≤ idx.toNat ∧ idx.toNat ≤ 0x01FF)

/-- The error a decoded command meets, by the causes of R221 in the order of R224: the session phase before the
operand. None: the command is performed. -/
inductive ErrorCause (s : State) : Instr → Nibble → Prop where
  | tableInUse : s.phase = .active → s.poly ≠ s.tblPoly → ErrorCause s .buildTable 4#4
  | closedImm (nm1 v) : s.phase = .final → ErrorCause s (.updateImm nm1 v) 3#4
  | closedBuf (off len) : s.phase = .final → ErrorCause s (.updateBuf off len) 3#4
  | rangeBuf (off : Half) (len : Word) : s.phase ≠ .final → s.bufLen.toNat < off.toNat + len.toNat →
      ErrorCause s (.updateBuf off len) 2#4
  | rangeWrite (a : Half) (b) : s.bufSize ≤ a.toNat → ErrorCause s (.writeBuf a b) 2#4
  | rangeWrite4 (a : Half) (w) : s.bufSize < a.toNat + 4 → ErrorCause s (.writeBuf4 a w) 2#4
  | rangeLength (l : Word) : s.bufSize < l.toNat → ErrorCause s (.setBufLen l) 2#4
  | rangeRead (a : Half) : s.bufSize ≤ a.toNat → ErrorCause s (.readBuf a) 2#4
  | badReg (idx : Half) : ¬ mappedIndex idx → ErrorCause s (.readReg idx) 5#4

/-- The commands of a program as the host offers them (R89). -/
def offered (is : List Instr) : List PortInput := is.map fun i => .command (encode i)

/-- A run of k steps of the machine, stopping where a step stops (R263). -/
def run : Nat → State → Host.Outcome State Fault Refusal
  | 0, s => .next s
  | k + 1, s =>
    match step s with
    | .next t => run k t
    | .fault r => .fault r
    | .refused r => .refused r

/-- The response OK with DATA 0 (R10). -/
def okResponse : Response := ⟨0#4, 0#32⟩

end Sys2Proof.Machine
end

