-- ==== Sys2Proof/Certificates/Slice0/Obligations.lean ====
section
/-! DEFINITION. The statements about the crc32 core, each from a numbered rule of the spec; OBLIGATIONS.json names the
rule. A command's result is stated whole, as the next state exec answers, so its frame is stated with it: every field
not named in the record update is as it was. -/

open Sys2Proof Sys2Proof.Machine

/-! ## Reset, the idle block and the port -/

/-- R251: every element and every view after hardware reset, for every configuration and port. -/
def Obligations.ResetGivesEveryElementItsValue : Prop :=
  ∀ (cfg : Config) (inputs : List PortInput) (responses : List Response) (s : State),
    (s = State.reset ∨ s = State.resetWith cfg inputs responses) →
      s.poly = 0xEDB88320#32 ∧ s.seed = 0xFFFFFFFF#32 ∧ s.crc = 0xFFFFFFFF#32 ∧ s.result = 0x00000000#32 ∧
      s.phase = .opened ∧ (∀ i : Byte, tableAt s.table i = entry 0xEDB88320#32 i) ∧ s.tblPoly = 0xEDB88320#32 ∧
      (∀ a : Nat, s.buf.readByte a = 0x00#8) ∧ s.bufLen = 0#16 ∧ s.err = false ∧ s.errCode = 0#4 ∧
      (∀ k, s.digest k = 0x00#8) ∧ s.statusView = 0x00000000#32 ∧ s.configView.toNat = s.bufSize

/-- R250: asserting rst_n at any time, with or without a command in flight, sets every element to its reset value; the
block gives no response and accepts no command. That what the host still offers stays offered (log 5) and that the
responses already given stay given (log 2) is the model's choice, not the rule's. -/
def Obligations.HardwareResetFromAnyState : Prop :=
  ∀ (s : State) (inFlight : Option Command) (rest : List PortInput),
    s.inputs = .hardwareReset inFlight :: rest →
      step s = .next (State.resetWith s.cfg rest s.responses)

/-- R233: the idle block keeps all its state, and only hardware reset changes state without a command. -/
def Obligations.IdleBlockKeepsItsState : Prop :=
  (∀ s : State, s.inputs = [] → step s = .next s) ∧
  (∀ s t : State, step s = .next t → t ≠ s →
    (∃ c rest, s.inputs = .command c :: rest) ∨ (∃ f rest, s.inputs = .hardwareReset f :: rest))

/-- The transaction of the first command offered is the decoded command's meaning on the state whose port has taken it
(R11, R63, R86). -/
def Obligations.StepPerformsTheDecodedCommand : Prop :=
  ∀ (s : State) (c : Command) (rest : List PortInput) (i : Instr),
    s.inputs = .command c :: rest → decode c = .ok i → step s = exec i { s with inputs := rest }

/-- R87: exactly which CMD words are illegal, what an illegal command does, and that `nop` is the only command that
does nothing in every state. -/
def Obligations.IllegalWordsAreExactlyThese : Prop :=
  (∀ c : Command, (∃ why, decode c = .error why) ↔
    (c.cmd.extractLsb' 16 8 ≠ 0#8 ∨
     0x0E ≤ (c.cmd.extractLsb' 24 8).toNat ∨
     ((c.cmd.extractLsb' 24 8).toNat ∈ [0x00, 0x01, 0x02, 0x03, 0x04, 0x07, 0x0A, 0x0D] ∧
        c.cmd.extractLsb' 0 16 ≠ 0#16) ∨
     ((c.cmd.extractLsb' 24 8).toNat = 0x05 ∧ c.cmd.extractLsb' 2 14 ≠ 0#14))) ∧
  (∀ (s : State) (c : Command) (rest : List PortInput) (why : IllegalWord),
    s.inputs = .command c :: rest → decode c = .error why →
      step s = .next (rejectedWith 1#4 { s with inputs := rest })) ∧
  (∀ i : Instr, (∀ s : State, exec i s = .next (answeredOk 0#32 s)) ↔ i = .nop)

/-- The entries of the port are performed one at a time in the order they are taken, and none reads anything of a later
one: for commands this is R63. The entries range over hardware resets too, and that what is offered after a reset stays
offered is the model's choice (log 5). -/
def Obligations.CommandsTakeEffectInOrder : Prop :=
  ∀ (xs ys : List PortInput) (s t : State),
    run xs.length { s with inputs := xs } = .next t →
      t.inputs = [] ∧
      run xs.length { s with inputs := xs ++ ys } = .next { t with inputs := ys } ∧
      run (xs.length + ys.length) { s with inputs := xs ++ ys } = run ys.length { t with inputs := ys }

/-! ## Encoding -/

/-- Decoding what the assembler writes gives the command back, with every operand at every value (R83, R86, R89). -/
def Obligations.DecodeOfEncodeIsTheCommand : Prop :=
  ∀ i : Instr, i.wf = true → decode (encode i) = .ok i

/-- R84: ARG bits a command does not use have no effect, every CMD bit is checked, and the assembler writes 0 in every
ignored ARG bit. -/
def Obligations.IgnoredArgBitsHaveNoEffect : Prop :=
  ∀ (c : Command) (i : Instr), decode c = .ok i →
    i.wf = true ∧ (encode i).cmd = c.cmd ∧ (encode i).arg = c.arg &&& usedArgBits i ∧
    ∀ arg : Word, arg &&& usedArgBits i = c.arg &&& usedArgBits i → decode ⟨c.cmd, arg⟩ = .ok i

/-- R91: the worked encodings, and four illegal words. -/
def Obligations.WorkedEncodingsDecode : Prop :=
  decode ⟨0x01000000#32, 0x82F63B78#32⟩ = .ok (.setPoly 0x82F63B78#32) ∧
  decode ⟨0x05000002#32, 0x00333231#32⟩ = .ok (.updateImm 2#2 0x00333231#32) ∧
  decode ⟨0x05000003#32, 0x34333231#32⟩ = .ok (.updateImm 3#2 0x34333231#32) ∧
  decode ⟨0x06000000#32, 0x00000009#32⟩ = .ok (.updateBuf 0#16 9#32) ∧
  decode ⟨0x09000004#32, 0x38373635#32⟩ = .ok (.writeBuf4 4#16 0x38373635#32) ∧
  decode ⟨0x0B000180#32, 0x00000000#32⟩ = .ok (.readReg 0x0180#16) ∧
  decode ⟨0x0B000008#32, 0x00000000#32⟩ = .ok (.readReg 0x0008#16) ∧
  (∀ arg : Word, decode ⟨0x00010000#32, arg⟩ = .error .reservedFieldNotZero) ∧
  (∀ arg : Word, decode ⟨0x07000001#32, arg⟩ = .error .immediateNotZero) ∧
  (∀ arg : Word, decode ⟨0x05000004#32, arg⟩ = .error .countFieldNotZero) ∧
  (∀ arg : Word, decode ⟨0x0E000000#32, arg⟩ = .error .reservedOpcode)

/-! ## Table builder -/

/-- R112: `set_poly` takes every polynomial in every phase and writes POLY alone. -/
def Obligations.SetPolyWritesPolyAlone : Prop :=
  (∀ arg : Word, decode ⟨0x01000000#32, arg⟩ = .ok (.setPoly arg)) ∧
  onlyLegalWords 0x01#8 (· = 0x01000000#32) ∧
  (∀ (p : Word) (s : State), exec (.setPoly p) s = .next (answeredOk 0#32 { s with poly := p }))

/-- R113: `build_table` replaces all 256 entries and TBL_POLY in one step, or is rejected with TABLE_IN_USE. -/
def Obligations.BuildTableReplacesTheWholeTable : Prop :=
  (∀ arg : Word, decode ⟨0x02000000#32, arg⟩ = .ok .buildTable) ∧
  onlyLegalWords 0x02#8 (· = 0x02000000#32) ∧
  (∀ s : State, ¬ (s.phase = .active ∧ s.poly ≠ s.tblPoly) →
    ∃ T : Table, (∀ i : Byte, tableAt T i = entry s.poly i) ∧
      exec .buildTable s = .next (answeredOk 0#32 { s with table := T, tblPoly := s.poly })) ∧
  (∀ s : State, s.phase = .active → s.poly ≠ s.tblPoly → exec .buildTable s = .next (rejectedWith 4#4 s))

/-- R114: when POLY == TBL_POLY the rebuilt table equals the held one, so skipping the rebuild has no effect. -/
def Obligations.RebuildOfTheHeldTableChangesNothing : Prop :=
  ∀ s : State, s.Inv → s.poly = s.tblPoly → exec .buildTable s = .next (answeredOk 0#32 s)

/-- R110, R111: entry(P, i) is the eighth of the running entries that start at i and shift right, taking the exclusive
or with P after the shift when the low bit before it was set; table_of(P) holds the 256 of them in index order. -/
def Obligations.EntryIsEightShiftAndXorSteps : Prop :=
  ∀ (P : Word) (i : Byte), tableAt (tableOf P) i = entry P i ∧
    ∀ c : Nat → Word, c 0 = i.setWidth 32 →
      (∀ k, k < 8 → c (k + 1) = if (c k).getLsbD 0 = true then (c k >>> 1) ^^^ P else c k >>> 1) →
        entry P i = c 8

/-- R115: the laws of the table function, with the example that it is not linear in the polynomial. -/
def Obligations.TableFunctionLaws : Prop :=
  (∀ P : Word, entry P 0#8 = 0#32) ∧
  (∀ P : Word, entry P 128#8 = P) ∧
  (∀ (P : Word) (i j : Byte), entry P (i ^^^ j) = entry P i ^^^ entry P j) ∧
  (∀ i : Byte, tableAt (tableOf 0#32) i = 0#32) ∧
  (∀ P Q : Word, tableOf P = tableOf Q ↔ P = Q) ∧
  entry 3#32 1#8 = 2#32 ∧ entry 1#32 1#8 ^^^ entry 2#32 1#8 = 0#32

/-! ## Streaming engine -/

/-- R132: `set_seed` takes every seed in every phase and writes SEED alone. -/
def Obligations.SetSeedWritesSeedAlone : Prop :=
  (∀ arg : Word, decode ⟨0x03000000#32, arg⟩ = .ok (.setSeed arg)) ∧
  onlyLegalWords 0x03#8 (· = 0x03000000#32) ∧
  (∀ (v : Word) (s : State), exec (.setSeed v) s = .next (answeredOk 0#32 { s with seed := v }))

/-- R133: `reset` loads the register with the seed and opens a session, in every phase. -/
def Obligations.ResetLoadsTheSeed : Prop :=
  (∀ arg : Word, decode ⟨0x04000000#32, arg⟩ = .ok .reset) ∧
  onlyLegalWords 0x04#8 (· = 0x04000000#32) ∧
  (∀ s : State, exec .reset s = .next (answeredOk 0#32 { s with crc := s.seed, phase := .opened }))

/-- R134: `update_imm` folds bytes 0..n-1 of ARG in that order and makes the session ACTIVE; CLOSED in FINAL. -/
def Obligations.UpdateImmFoldsItsBytes : Prop :=
  (∀ (nm1 : BitVec 2) (arg : Word), decode ⟨0x05000000#32 ||| nm1.setWidth 32, arg⟩ =
    .ok (.updateImm nm1 (arg &&& BitVec.ofNat 32 (2 ^ (8 * (nm1.toNat + 1)) - 1)))) ∧
  onlyLegalWords 0x05#8 (fun w => w.extractLsb' 2 22 = 0#22) ∧
  (∀ (nm1 : BitVec 2) (v : Word) (s : State), s.phase ≠ .final →
    exec (.updateImm nm1 v) s = .next (answeredOk 0#32
      { s with
        crc := foldAll s.table s.crc ((List.range (nm1.toNat + 1)).map fun j => v.extractLsb' (8 * j) 8)
        phase := .active })) ∧
  (∀ (nm1 : BitVec 2) (v : Word) (s : State), s.phase = .final →
    exec (.updateImm nm1 v) s = .next (rejectedWith 3#4 s))

/-- R135: `update_buf` folds LEN bytes of the buffer from OFF on, in increasing address order; CLOSED in FINAL, before
RANGE when OFF + LEN > BUF_LEN. The premise BUF_LEN <= BUF_SIZE is R33's, which every step keeps. -/
def Obligations.UpdateBufFoldsTheBuffer : Prop :=
  (∀ (off : Half) (arg : Word), decode ⟨0x06000000#32 ||| off.setWidth 32, arg⟩ = .ok (.updateBuf off arg)) ∧
  onlyLegalWords 0x06#8 (fun w => w.extractLsb' 16 8 = 0#8) ∧
  (∀ (off : Half) (len : Word) (s : State), s.bufLen.toNat ≤ s.bufSize → s.phase ≠ .final →
    off.toNat + len.toNat ≤ s.bufLen.toNat →
    exec (.updateBuf off len) s = .next (answeredOk 0#32
      { s with
        crc := foldAll s.table s.crc ((List.range len.toNat).map fun j => s.buf.readByte (off.toNat + j))
        phase := if 0 < len.toNat then .active else s.phase })) ∧
  (∀ (off : Half) (len : Word) (s : State), s.phase = .final →
    exec (.updateBuf off len) s = .next (rejectedWith 3#4 s)) ∧
  (∀ (off : Half) (len : Word) (s : State), s.phase ≠ .final → s.bufLen.toNat < off.toNat + len.toNat →
    exec (.updateBuf off len) s = .next (rejectedWith 2#4 s))

/-- R130, R131: folding a sequence is folding its bytes in order, and depends on the bytes and their order alone. -/
def Obligations.FoldOfASplitSequence : Prop :=
  (∀ (T : Table) (c : Word) (b : Byte),
    fold T c b = (c >>> 8) ^^^ tableAt T (b ^^^ c.extractLsb' 0 8)) ∧
  (∀ (T : Table) (c : Word), foldAll T c [] = c) ∧
  (∀ (T : Table) (c : Word) (b : Byte) (s : List Byte), foldAll T c ([b] ++ s) = foldAll T (fold T c b) s) ∧
  (∀ (T : Table) (c : Word) (s t : List Byte), foldAll T c (s ++ t) = foldAll T (foldAll T c s) t)

/-- The table-driven fold is bit-serial polynomial division (R2, R53): folding the byte b is eight shift-and-xor steps
of R110 on the register with b in its low byte, for every polynomial, register and byte. -/
def Obligations.TableFoldIsBitSerialDivision : Prop :=
  (∀ (P c : Word) (b : Byte), fold (tableOf P) c b = entrySteps P 8 (c ^^^ b.setWidth 32)) ∧
  (∀ (P c : Word) (s : List Byte),
    foldAll (tableOf P) c s = s.foldl (fun c b => entrySteps P 8 (c ^^^ b.setWidth 32)) c)

/-- R134's corner cases: a byte equal to the register's low byte is a plain shift under every table of a polynomial,
the zero polynomial makes each fold a shift, and four bytes 0xFF from the default seed give 0. -/
def Obligations.FoldCornerCases : Prop :=
  (∀ P c : Word, fold (tableOf P) c (c.extractLsb' 0 8) = c >>> 8) ∧
  (∀ (c : Word) (b : Byte), fold (tableOf 0#32) c b = c >>> 8) ∧
  (∀ (c : Word) (b0 b1 b2 b3 : Byte), foldAll (tableOf 0#32) c [b0, b1, b2, b3] = 0#32) ∧
  (∀ P : Word, foldAll (tableOf P) 0xFFFFFFFF#32 [0xFF#8, 0xFF#8, 0xFF#8, 0xFF#8] = 0#32)

/-- R136: folding a byte sequence in chunks, by `update_imm` and `update_buf` in any mix, gives fold* of the whole
sequence, and so does any other split of it; a following `finalize` gives the same RESULT. -/
def Obligations.AnySplitOfTheDataGivesTheSameCrc : Prop :=
  ∀ (s t u : State) (is js : List Instr),
    (∀ i ∈ is, i.isUpdate = true ∧ i.wf = true) → (∀ i ∈ js, i.isUpdate = true ∧ i.wf = true) →
    is.flatMap (Instr.updateData s.buf) = js.flatMap (Instr.updateData s.buf) →
    run is.length { s with inputs := offered is } = .next t →
    t.responses = s.responses ++ List.replicate is.length okResponse →
    run js.length { s with inputs := offered js } = .next u →
    u.responses = s.responses ++ List.replicate js.length okResponse →
      t.crc = foldAll s.table s.crc (is.flatMap (Instr.updateData s.buf)) ∧ u.crc = t.crc ∧
      ∃ t' u', exec .finalize t = .next t' ∧ exec .finalize u = .next u' ∧
        t'.result = ~~~ t.crc ∧ u'.result = t'.result ∧ ∀ k, u'.digest k = t'.digest k

/-- R137: after `reset`, the same bytes with the same table and seed give the same register, and after `finalize` the
same RESULT and digest, whatever the earlier sessions did. -/
def Obligations.RestartReproducesTheDigest : Prop :=
  ∀ (s s' t t' : State) (is js : List Instr),
    s.table = s'.table → s.seed = s'.seed →
    (∀ i ∈ is, i.isUpdate = true ∧ i.wf = true) → (∀ i ∈ js, i.isUpdate = true ∧ i.wf = true) →
    is.flatMap (Instr.updateData s.buf) = js.flatMap (Instr.updateData s'.buf) →
    run (is.length + 2) { s with inputs := offered (.reset :: is ++ [.finalize]) } = .next t →
    t.responses = s.responses ++ List.replicate (is.length + 2) okResponse →
    run (js.length + 2) { s' with inputs := offered (.reset :: js ++ [.finalize]) } = .next t' →
    t'.responses = s'.responses ++ List.replicate (js.length + 2) okResponse →
      t.crc = foldAll s.table s.seed (is.flatMap (Instr.updateData s.buf)) ∧
      t'.crc = t.crc ∧ t'.result = t.result ∧ ∀ k, t'.digest k = t.digest k

/-! ## Finalizer -/

/-- R160: `finalize` latches the complement of the register and closes the session, in every phase; in FINAL nothing
changes. -/
def Obligations.FinalizeLatchesTheComplement : Prop :=
  (∀ arg : Word, decode ⟨0x07000000#32, arg⟩ = .ok .finalize) ∧
  onlyLegalWords 0x07#8 (· = 0x07000000#32) ∧
  (∀ s : State, exec .finalize s = .next (answeredOk 0#32
    { s with result := s.crc ^^^ 0xFFFFFFFF#32, phase := .final })) ∧
  (∀ s : State, s.Inv → s.phase = .final → exec .finalize s = .next (answeredOk 0#32 s))

/-- R161, R162: the digest is RESULT read most significant byte first, and as a big-endian number it is RESULT. -/
def Obligations.DigestIsResultMostSignificantByteFirst : Prop :=
  ∀ s : State,
    exec (.readReg 0x0003#16) s = .next (answeredOk s.result s) ∧
    exec (.readReg 0x0004#16) s = .next (answeredOk ((s.result.extractLsb' 24 8).setWidth 32) s) ∧
    exec (.readReg 0x0005#16) s = .next (answeredOk ((s.result.extractLsb' 16 8).setWidth 32) s) ∧
    exec (.readReg 0x0006#16) s = .next (answeredOk ((s.result.extractLsb' 8 8).setWidth 32) s) ∧
    exec (.readReg 0x0007#16) s = .next (answeredOk ((s.result.extractLsb' 0 8).setWidth 32) s) ∧
    s.result.toNat = (((s.digest 0).toNat * 256 + (s.digest 1).toNat) * 256 + (s.digest 2).toNat) * 256 +
      (s.digest 3).toNat

/-- R163: RESULT and the digest change only at `finalize` and hardware reset. -/
def Obligations.ResultChangesOnlyAtFinalize : Prop :=
  ∀ s t : State, step s = .next t →
    (t.result = s.result ∧ ∀ k, t.digest k = s.digest k) ∨
    (∃ f rest, s.inputs = .hardwareReset f :: rest) ∨
    (∃ c rest, s.inputs = .command c :: rest ∧ decode c = .ok .finalize)

/-- R164, R259: from FINAL, whatever commands come short of `reset`, the session stays FINAL and its register and its
one finalized value stay; every update is rejected with CLOSED. -/
def Obligations.FinalizedSessionKeepsItsValue : Prop :=
  (∀ (cs : List Command) (s t : State), s.Inv → s.phase = .final → (∀ c ∈ cs, decode c ≠ .ok .reset) →
    run cs.length { s with inputs := cs.map .command } = .next t →
      t.phase = .final ∧ t.crc = s.crc ∧ t.result = s.result) ∧
  (∀ (i : Instr) (s : State), i.isUpdate = true → s.phase = .final → exec i s = .next (rejectedWith 3#4 s))

/-! ## Buffer and control -/

/-- R175: `nop` changes nothing. -/
def Obligations.NopChangesNothing : Prop :=
  (∀ arg : Word, decode ⟨0x00000000#32, arg⟩ = .ok .nop) ∧
  onlyLegalWords 0x00#8 (· = 0x00000000#32) ∧
  (∀ s : State, exec .nop s = .next (answeredOk 0#32 s))

/-- R176: `write_buf` writes one byte of the physical buffer, in every phase; RANGE at or above BUF_SIZE. The premise
is that the buffer is in its canonical form, which every step keeps. -/
def Obligations.WriteBufWritesOneByte : Prop :=
  (∀ (a : Half) (arg : Word),
    decode ⟨0x08000000#32 ||| a.setWidth 32, arg⟩ = .ok (.writeBuf a (arg.extractLsb' 0 8))) ∧
  onlyLegalWords 0x08#8 (fun w => w.extractLsb' 16 8 = 0#8) ∧
  (∀ (a : Half) (b : Byte) (s : State), s.buf.wf → a.toNat < s.bufSize →
    ∃ m : Memory, exec (.writeBuf a b) s = .next (answeredOk 0#32 { s with buf := m }) ∧
      m.readByte a.toNat = b ∧ ∀ x, x ≠ a.toNat → m.readByte x = s.buf.readByte x) ∧
  (∀ (a : Half) (b : Byte) (s : State), s.bufSize ≤ a.toNat → exec (.writeBuf a b) s = .next (rejectedWith 2#4 s))

/-- R177: `write_buf4` writes byte j of ARG to BUF[A+j], at any alignment; RANGE when A + 4 > BUF_SIZE. The premise is
that the buffer is in its canonical form. -/
def Obligations.WriteBuf4WritesFourBytes : Prop :=
  (∀ (a : Half) (arg : Word), decode ⟨0x09000000#32 ||| a.setWidth 32, arg⟩ = .ok (.writeBuf4 a arg)) ∧
  onlyLegalWords 0x09#8 (fun w => w.extractLsb' 16 8 = 0#8) ∧
  (∀ (a : Half) (w : Word) (s : State), s.buf.wf → a.toNat + 4 ≤ s.bufSize →
    ∃ m : Memory, exec (.writeBuf4 a w) s = .next (answeredOk 0#32 { s with buf := m }) ∧
      (∀ j, j < 4 → m.readByte (a.toNat + j) = w.extractLsb' (8 * j) 8) ∧
      ∀ x, (x < a.toNat ∨ a.toNat + 4 ≤ x) → m.readByte x = s.buf.readByte x) ∧
  (∀ (a : Half) (w : Word) (s : State), s.bufSize < a.toNat + 4 → exec (.writeBuf4 a w) s = .next (rejectedWith 2#4 s))

/-- R178: `set_buf_len` sets the logical length, up to BUF_SIZE. -/
def Obligations.SetBufLenWritesTheLength : Prop :=
  (∀ arg : Word, decode ⟨0x0A000000#32, arg⟩ = .ok (.setBufLen arg)) ∧
  onlyLegalWords 0x0A#8 (· = 0x0A000000#32) ∧
  (∀ (l : Word) (s : State), l.toNat ≤ s.bufSize →
    ∃ n : Half, n.toNat = l.toNat ∧ exec (.setBufLen l) s = .next (answeredOk 0#32 { s with bufLen := n })) ∧
  (∀ (l : Word) (s : State), s.bufSize < l.toNat → exec (.setBufLen l) s = .next (rejectedWith 2#4 s))

/-- R179: `read_buf` answers one byte of the physical buffer; RANGE at or above BUF_SIZE. -/
def Obligations.ReadBufAnswersOneByte : Prop :=
  (∀ (a : Half) (arg : Word), decode ⟨0x0C000000#32 ||| a.setWidth 32, arg⟩ = .ok (.readBuf a)) ∧
  onlyLegalWords 0x0C#8 (fun w => w.extractLsb' 16 8 = 0#8) ∧
  (∀ (a : Half) (s : State), a.toNat < s.bufSize →
    exec (.readBuf a) s = .next (answeredOk ((s.buf.readByte a.toNat).setWidth 32) s)) ∧
  (∀ (a : Half) (s : State), s.bufSize ≤ a.toNat → exec (.readBuf a) s = .next (rejectedWith 2#4 s))

/-- R38, R180: `read_reg` answers the value of the register index map; BADREG at every other index. -/
def Obligations.ReadRegAnswersTheIndexMap : Prop :=
  (∀ (idx : Half) (arg : Word), decode ⟨0x0B000000#32 ||| idx.setWidth 32, arg⟩ = .ok (.readReg idx)) ∧
  onlyLegalWords 0x0B#8 (fun w => w.extractLsb' 16 8 = 0#8) ∧
  (∀ s : State,
    exec (.readReg 0x0000#16) s = .next (answeredOk s.poly s) ∧
    exec (.readReg 0x0001#16) s = .next (answeredOk s.seed s) ∧
    exec (.readReg 0x0002#16) s = .next (answeredOk s.crc s) ∧
    exec (.readReg 0x0003#16) s = .next (answeredOk s.result s) ∧
    exec (.readReg 0x0004#16) s = .next (answeredOk ((s.result.extractLsb' 24 8).setWidth 32) s) ∧
    exec (.readReg 0x0005#16) s = .next (answeredOk ((s.result.extractLsb' 16 8).setWidth 32) s) ∧
    exec (.readReg 0x0006#16) s = .next (answeredOk ((s.result.extractLsb' 8 8).setWidth 32) s) ∧
    exec (.readReg 0x0007#16) s = .next (answeredOk ((s.result.extractLsb' 0 8).setWidth 32) s) ∧
    exec (.readReg 0x0008#16) s = .next (answeredOk s.statusView s) ∧
    exec (.readReg 0x0009#16) s = .next (answeredOk s.tblPoly s) ∧
    exec (.readReg 0x000A#16) s = .next (answeredOk (s.bufLen.setWidth 32) s) ∧
    exec (.readReg 0x000B#16) s = .next (answeredOk (s.cfg.bufSize.setWidth 32) s) ∧
    ∀ i : Byte, exec (.readReg (0x0100#16 + i.setWidth 16)) s = .next (answeredOk (tableAt s.table i) s)) ∧
  (∀ (i : Byte) (s : State), s.Inv →
    exec (.readReg (0x0100#16 + i.setWidth 16)) s = .next (answeredOk (entry s.tblPoly i) s)) ∧
  (∀ (idx : Half) (s : State),
    (0x000C ≤ idx.toNat ∧ idx.toNat ≤ 0x00FF) ∨ 0x0200 ≤ idx.toNat →
      exec (.readReg idx) s = .next (rejectedWith 5#4 s))

/-- R34: the fields of STATUS. -/
def Obligations.StatusShowsPhaseAndErrorRecord : Prop :=
  ∀ s : State, ∃ v : Word, exec (.readReg 0x0008#16) s = .next (answeredOk v s) ∧
    (v.extractLsb' 0 2).toNat = (match s.phase with | .opened => 0 | .active => 1 | .final => 2) ∧
    v.getLsbD 2 = s.err ∧ v.getLsbD 3 = false ∧ v.extractLsb' 4 4 = s.errCode ∧ v.extractLsb' 8 24 = 0#24

/-- R181: `clear_err` clears the error record. -/
def Obligations.ClearErrClearsTheRecord : Prop :=
  (∀ arg : Word, decode ⟨0x0D000000#32, arg⟩ = .ok .clearErr) ∧
  onlyLegalWords 0x0D#8 (· = 0x0D000000#32) ∧
  (∀ s : State, exec .clearErr s = .next (answeredOk 0#32 { s with err := false, errCode := 0#4 }))

/-- R55: after `write_buf4 A, V`, byte j of V reads back at A + j, and folding the four bytes from the buffer is
folding V with `update_imm`. -/
def Obligations.FourByteWriteReadsBackByteByByte : Prop :=
  ∀ (a : Half) (v : Word) (s t : State), s.Inv → a.toNat + 4 ≤ s.bufSize →
    exec (.writeBuf4 a v) s = .next t →
      (∀ j : Nat, j < 4 → exec (.readBuf (a + BitVec.ofNat 16 j)) t =
        .next (answeredOk ((v.extractLsb' (8 * j) 8).setWidth 32) t)) ∧
      (a.toNat + 4 ≤ t.bufLen.toNat → exec (.updateBuf a 4#32) t = exec (.updateImm 3#2 v) t)

/-! ## Errors -/

/-- R11, R80, R92, R220: every transaction answers exactly one response and goes on, with STATUS one of 0 to 5 and
DATA 0 in a rejection. -/
def Obligations.EveryTransactionIsAnsweredOnce : Prop :=
  ∀ (s : State) (c : Command) (rest : List PortInput), s.Inv → s.inputs = .command c :: rest →
    ∃ (t : State) (r : Response), step s = .next t ∧ t.inputs = rest ∧ t.responses = s.responses ++ [r] ∧
      r.status.toNat ≤ 5 ∧ (r.status ≠ 0#4 → r.data = 0#32) ∧
      (r.data ≠ 0#32 → ∃ a, decode c = .ok (.readReg a) ∨ decode c = .ok (.readBuf a))

/-- R222, R223: a transaction answered with an error code changes the error record alone, and its DATA is 0. -/
def Obligations.RejectionChangesTheErrorRecordAlone : Prop :=
  ∀ (s t : State) (c : Command) (rest : List PortInput) (r : Response),
    s.inputs = .command c :: rest → step s = .next t → t.responses = s.responses ++ [r] → r.status ≠ 0#4 →
      t = rejectedWith r.status { s with inputs := rest }

/-- R221, R224: a command is rejected exactly for the causes of the table, with one code: the encoding before the
session phase, and the phase before the operand. With no cause it is performed. -/
def Obligations.RejectionCausesAndPriority : Prop :=
  ∀ (s : State) (c : Command), s.Inv →
    (∀ code : Nibble, code ≠ 0#4 →
      (perform c s = .next (rejectedWith code s) ↔
        ((∃ why, decode c = .error why) ∧ code = 1#4) ∨ ∃ i, decode c = .ok i ∧ ErrorCause s i code)) ∧
    (∀ i : Instr, decode c = .ok i → (∀ code : Nibble, ¬ ErrorCause s i code) →
      ∃ (t : State) (data : Word), perform c s = .next t ∧ t.responses = s.responses ++ [⟨0#4, data⟩])

/-- R35: the history of the error record, step by step: the first code since the record was last cleared is kept. -/
def Obligations.ErrorRecordKeepsTheFirstCode : Prop :=
  (∀ (s t : State) (c : Command) (rest : List PortInput) (r : Response),
    s.Inv → s.inputs = .command c :: rest → step s = .next t → t.responses = s.responses ++ [r] →
      (r.status ≠ 0#4 → t.err = true ∧ t.errCode = if s.err = false then r.status else s.errCode) ∧
      (r.status = 0#4 → decode c = .ok .clearErr → t.err = false ∧ t.errCode = 0#4) ∧
      (r.status = 0#4 → decode c ≠ .ok .clearErr → t.err = s.err ∧ t.errCode = s.errCode) ∧
      (t.err = false ↔ t.errCode = 0#4)) ∧
  (∀ (s t : State) (f : Option Command) (rest : List PortInput),
    s.inputs = .hardwareReset f :: rest → step s = .next t → t.err = false ∧ t.errCode = 0#4)

/-- R60: reads change no state, or the error record alone where they are rejected, and answer the same twice; the
listed writing commands leave the same state when issued twice; and an update folds its bytes again. The responses
apart: each command gets its own. -/
def Obligations.ReadsAndRepeatedWrites : Prop :=
  (∀ (s t : State) (i : Instr) (a : Half), i = .readReg a ∨ i = .readBuf a → exec i s = .next t →
    ∃ r : Response, t.responses = s.responses ++ [r] ∧
      (r.status = 0#4 → t = { s with responses := t.responses }) ∧
      (r.status ≠ 0#4 → t = { s with err := t.err, errCode := t.errCode, responses := t.responses }) ∧
      ∃ u : State, exec i t = .next u ∧ u.responses = t.responses ++ [r]) ∧
  (∀ (s t : State) (i : Instr), s.Inv → i.isUpdate = false → exec i s = .next t →
    ∃ u : State, exec i t = .next u ∧ u = { t with responses := u.responses }) ∧
  (∀ (s t : State) (i : Instr), s.Inv → i.isUpdate = true → exec i s = .next t →
    t.responses = s.responses ++ [okResponse] →
      ∃ u : State, exec i t = .next u ∧ u.responses = t.responses ++ [okResponse] ∧
        u.crc = foldAll s.table t.crc (i.updateData s.buf)) ∧
  (∃ (s t u : State) (nm1 : BitVec 2) (v : Word),
    exec (.updateImm nm1 v) s = .next t ∧ exec (.updateImm nm1 v) t = .next u ∧ u.crc ≠ t.crc)

/-! ## Whole-machine rules -/

/-- The invariant of the block between commands, kept by every step from every state that satisfies it: the buffer's
canonical form, its bound, BUF_LEN <= BUF_SIZE (R33), TABLE = table_of(TBL_POLY) (R31), the error record (R35), and in
FINAL RESULT = ~CRC (R164). -/
def Obligations.StepKeepsTheInvariant : Prop :=
  ∀ s t : State, s.Inv → step s = .next t → t.Inv

/-- The state after reset satisfies the invariant, in every legal configuration. -/
def Obligations.ResetSatisfiesTheInvariant : Prop :=
  State.reset.Inv ∧
  ∀ (cfg : Config) (inputs : List PortInput) (responses : List Response), cfg.wf →
    (State.resetWith cfg inputs responses).Inv

/-- R28: PHASE moves exactly as its table says; and while it is OPEN the register holds what it was loaded with. -/
def Obligations.PhaseMovesAsItsTableSays : Prop :=
  ∀ s t : State, step s = .next t →
    (s.inputs = [] → t.phase = s.phase) ∧
    (∀ f rest, s.inputs = .hardwareReset f :: rest → t.phase = .opened ∧ t.crc = 0xFFFFFFFF#32) ∧
    (∀ c rest, s.inputs = .command c :: rest →
      (decode c = .ok .reset → t.phase = .opened ∧ t.crc = s.seed) ∧
      (decode c = .ok .finalize → t.phase = .final) ∧
      (∀ nm1 v, decode c = .ok (.updateImm nm1 v) → t.phase = if s.phase = .final then .final else .active) ∧
      (∀ off len, decode c = .ok (.updateBuf off len) →
        t.phase = if s.phase ≠ .final ∧ 0 < len.toNat ∧ off.toNat + len.toNat ≤ s.bufLen.toNat then .active
          else s.phase) ∧
      ((∀ i, decode c = .ok i → i ≠ .reset ∧ i ≠ .finalize ∧ i.isUpdate = false) → t.phase = s.phase) ∧
      (t.phase = .opened → decode c ≠ .ok .reset → s.phase = .opened ∧ t.crc = s.crc))

/-- R37, R138: each element is written by its own commands alone, and the parameters by none. -/
def Obligations.EachElementHasItsOwnWriters : Prop :=
  ∀ (s t : State) (c : Command) (rest : List PortInput), s.inputs = .command c :: rest → step s = .next t →
    t.cfg = s.cfg ∧
    (t.poly ≠ s.poly → ∃ p, decode c = .ok (.setPoly p)) ∧
    (t.seed ≠ s.seed → ∃ v, decode c = .ok (.setSeed v)) ∧
    (t.crc ≠ s.crc → decode c = .ok .reset ∨ ∃ i, decode c = .ok i ∧ i.isUpdate = true ∧
      i.updateData s.buf ≠ [] ∧ t.responses = s.responses ++ [okResponse] ∧
      t = { s with crc := t.crc, phase := t.phase, inputs := rest, responses := t.responses }) ∧
    (t.result ≠ s.result → decode c = .ok .finalize) ∧
    (t.phase ≠ s.phase → decode c = .ok .reset ∨ decode c = .ok .finalize ∨
      ∃ i, decode c = .ok i ∧ i.isUpdate = true) ∧
    (t.table ≠ s.table ∨ t.tblPoly ≠ s.tblPoly → decode c = .ok .buildTable) ∧
    (t.buf ≠ s.buf → ∃ a, (∃ b, decode c = .ok (.writeBuf a b)) ∨ ∃ w, decode c = .ok (.writeBuf4 a w)) ∧
    (t.bufLen ≠ s.bufLen → ∃ l, decode c = .ok (.setBufLen l)) ∧
    (t.err ≠ s.err ∨ t.errCode ≠ s.errCode → decode c = .ok .clearErr ∨
      ∃ code, code ≠ 0#4 ∧ t.responses = s.responses ++ [⟨code, 0#32⟩])

/-- R61: no rule of the block depends on the host binding. -/
def Obligations.HostBindingIsNeverRead : Prop :=
  ∀ (s t : State) (b : HostBinding), step s = .next t →
    step { s with cfg := { s.cfg with hostBinding := b } } = .next { t with cfg := { t.cfg with hostBinding := b } }

/-- R256: after `set_poly P` and any commands short of `build_table`, an update that is accepted folds with the table of
the TBL_POLY held before, in every phase that accepts one. And once a `build_table` has been accepted with P staged,
an update folds with the table of P, whatever commands short of another build come between. -/
def Obligations.StagedPolynomialWaitsForTheBuild : Prop :=
  ∀ (s t : State) (p : Word) (cs : List Command), s.Inv →
    run (cs.length + 1) { s with inputs := .command (encode (.setPoly p)) :: cs.map .command } = .next t →
      ((∀ c ∈ cs, decode c ≠ .ok .buildTable) →
        t.tblPoly = s.tblPoly ∧
        ∀ (i : Instr) (x : State), i.isUpdate = true → exec i t = .next x →
          x.responses = t.responses ++ [okResponse] →
            x.crc = foldAll (tableOf s.tblPoly) t.crc (i.updateData t.buf)) ∧
      ((∀ c ∈ cs, ∀ q, decode c ≠ .ok (.setPoly q)) →
        ∀ (u w : State) (ds : List Command), exec .buildTable t = .next u →
          u.responses = t.responses ++ [okResponse] → (∀ c ∈ ds, decode c ≠ .ok .buildTable) →
          run ds.length { u with inputs := ds.map .command } = .next w →
            w.tblPoly = p ∧
            ∀ (i : Instr) (x : State), i.isUpdate = true → exec i w = .next x →
              x.responses = w.responses ++ [okResponse] →
                x.crc = foldAll (tableOf p) w.crc (i.updateData w.buf))

/-- R257: a new seed reaches the register at the next `reset` and not before. Short of `reset` and another `set_seed`,
any commands go on after `set_seed v` as they do without it: the states differ in SEED alone, and in the responses,
where a read of SEED shows it. And whatever comes between, the next `reset` loads v. -/
def Obligations.SeedWaitsForTheReset : Prop :=
  (∀ (s u : State) (v : Word) (cs : List Command),
    (∀ c ∈ cs, decode c ≠ .ok .reset ∧ ∀ w, decode c ≠ .ok (.setSeed w)) →
    run cs.length { s with inputs := cs.map .command } = .next u →
      ∃ t : State,
        run (cs.length + 1) { s with inputs := .command (encode (.setSeed v)) :: cs.map .command } = .next t ∧
        t.crc = u.crc ∧ t = { u with seed := v, responses := t.responses }) ∧
  (∀ (s t : State) (v : Word) (cs : List Command),
    (∀ c ∈ cs, ∀ w, decode c ≠ .ok (.setSeed w)) →
    run (cs.length + 2) { s with inputs := .command (encode (.setSeed v)) :: cs.map .command ++
      [.command (encode .reset)] } = .next t →
      t.crc = v ∧ t.phase = .opened)

/-- R258: once a byte has been folded, whatever commands come short of `reset` and `finalize`, the table and its
polynomial stay what they were. -/
def Obligations.ActiveSessionKeepsItsTable : Prop :=
  ∀ (cs : List Command) (s t : State), s.Inv → s.phase = .active →
    (∀ c ∈ cs, decode c ≠ .ok .reset ∧ decode c ≠ .ok .finalize) →
    run cs.length { s with inputs := cs.map .command } = .next t →
      t.phase = .active ∧ t.table = s.table ∧ t.tblPoly = s.tblPoly

/-! ## The host's sequences -/

/-- R200, R203: the one-shot compute sequence is accepted whole from every state, its last DATA is the complement of
the fold of the buffer with the polynomial's table from the seed, and it leaves the block as R203 says. Where the
table of the polynomial is held already, `build_table` may be left out. -/
def Obligations.OneShotComputeFromAnyState : Prop :=
  (∀ (s : State) (P S : Word) (bs : List Byte), s.Inv → bs.length ≤ s.bufSize →
    ∃ t : State,
      run (compute P S bs).length { s with inputs := offered (compute P S bs) } = .next t ∧
      t.responses = s.responses ++ List.replicate ((compute P S bs).length - 1) okResponse ++
        [⟨0#4, ~~~ (foldAll (tableOf P) S bs)⟩] ∧
      t.poly = P ∧ t.tblPoly = P ∧ t.seed = S ∧ t.phase = .final ∧ t.result = ~~~ (foldAll (tableOf P) S bs) ∧
      t.bufLen.toNat = bs.length ∧ ∀ (j : Nat) (h : j < bs.length), t.buf.readByte j = bs[j]) ∧
  (∀ (s : State) (P S : Word) (bs : List Byte), s.Inv → s.tblPoly = P → bs.length ≤ s.bufSize →
    ∃ t : State,
      run (computeReusing P S bs).length { s with inputs := offered (computeReusing P S bs) } = .next t ∧
      t.responses = s.responses ++ List.replicate ((computeReusing P S bs).length - 1) okResponse ++
        [⟨0#4, ~~~ (foldAll (tableOf P) S bs)⟩])

/-- R202: the same value without the buffer, for any number of bytes, and in chunks of at most BUF_SIZE bytes. -/
def Obligations.OneShotVariantsAgree : Prop :=
  (∀ (s : State) (P S : Word) (bs : List Byte), s.Inv →
    ∃ t : State,
      run (computeImmediate P S bs).length { s with inputs := offered (computeImmediate P S bs) } = .next t ∧
      t.responses = s.responses ++ List.replicate ((computeImmediate P S bs).length - 1) okResponse ++
        [⟨0#4, ~~~ (foldAll (tableOf P) S bs)⟩]) ∧
  (∀ (s : State) (P S : Word) (chunks : List (List Byte)), s.Inv → (∀ bs ∈ chunks, bs.length ≤ s.bufSize) →
    ∃ t : State,
      run (computeChunked P S chunks).length { s with inputs := offered (computeChunked P S chunks) } = .next t ∧
      t.responses = s.responses ++ List.replicate ((computeChunked P S chunks).length - 1) okResponse ++
        [⟨0#4, ~~~ (foldAll (tableOf P) S chunks.flatten)⟩])

/-- R201: the default overloads, and the sequence that leaves out what the reset state holds already. -/
def Obligations.DefaultComputeFromReset : Prop :=
  (∀ bs : List Byte, computeDefault bs = compute 0xEDB88320#32 0xFFFFFFFF#32 bs) ∧
  (∀ (v : Word) (bs : List Byte), computeSeeded v bs = compute 0xEDB88320#32 v bs) ∧
  (∀ (cfg : Config) (bs : List Byte), cfg.wf → bs.length ≤ cfg.bufSize.toNat →
    ∃ t : State,
      run (computeAtReset bs).length (State.resetWith cfg (offered (computeAtReset bs)) []) = .next t ∧
      t.responses = List.replicate ((computeAtReset bs).length - 1) okResponse ++
        [⟨0#4, ~~~ (foldAll (tableOf 0xEDB88320#32) 0xFFFFFFFF#32 bs)⟩])

/-- R12: s32 reads the same 32 bits as a two's-complement number. -/
def Obligations.SignedReadingKeepsTheBits : Prop :=
  ∀ v : Word, BitVec.ofInt 32 (s32 v) = v ∧ -(2 ^ 31) ≤ s32 v ∧ s32 v < 2 ^ 31 ∧
    (s32 v < 0 ↔ v.getLsbD 31 = true)

/-- R204: through the update mapping, the source's bounds contract offset + length <= bytes.length is the block's
RANGE check. -/
def Obligations.EngineUpdateChecksTheSourceBounds : Prop :=
  ∀ (s : State) (bs : List Byte) (off : Half) (len : Word),
    s.Inv → s.phase ≠ .final → bs.length ≤ s.bufSize →
    ∃ t : State,
      run (engineUpdate bs off len).length { s with inputs := offered (engineUpdate bs off len) } = .next t ∧
      t.responses = s.responses ++ List.replicate ((engineUpdate bs off len).length - 1) okResponse ++
        [⟨if off.toNat + len.toNat ≤ bs.length then 0#4 else 2#4, 0#32⟩] ∧
      (off.toNat + len.toNat ≤ bs.length →
        t.crc = foldAll s.table s.crc ((bs.drop off.toNat).take len.toNat)) ∧
      (bs.length < off.toNat + len.toNat → t.crc = s.crc ∧ t.phase = s.phase)

/-- R89, R90: the words of a line are the encodings of its commands, each of which decodes back; the words of every row
of the syntax table, with an operand out of its range refused; and the one-word and two-word pseudo-instructions and
the byte lists of R90 refused where an operand of theirs is. -/
def Obligations.AssemblerWritesLegalWords : Prop :=
  (∀ (l : AsmLine) (is : List Instr), asmInstrs l = some is →
    assemble l = some (is.map encode) ∧ ∀ i ∈ is, i.wf = true ∧ decode (encode i) = .ok i) ∧
  (assemble .nop = some [⟨0x00000000#32, 0#32⟩] ∧ assemble .buildTable = some [⟨0x02000000#32, 0#32⟩] ∧
    assemble .reset = some [⟨0x04000000#32, 0#32⟩] ∧ assemble .finalize = some [⟨0x07000000#32, 0#32⟩] ∧
    assemble .clearErr = some [⟨0x0D000000#32, 0#32⟩]) ∧
  (∀ p : Nat, assemble (.setPoly p) =
    if p < 2 ^ 32 then some [⟨0x01000000#32, BitVec.ofNat 32 p⟩] else none) ∧
  (∀ v : Nat, assemble (.setSeed v) =
    if v < 2 ^ 32 then some [⟨0x03000000#32, BitVec.ofNat 32 v⟩] else none) ∧
  (∀ n v : Nat, assemble (.updateImm n v) =
    if 1 ≤ n ∧ n ≤ 4 ∧ v < 2 ^ (8 * n) then
      some [⟨BitVec.ofNat 32 (0x05000000 + (n - 1)), BitVec.ofNat 32 v⟩] else none) ∧
  (∀ off len : Nat, assemble (.updateBuf off len) =
    if off < 2 ^ 16 ∧ len < 2 ^ 32 then
      some [⟨BitVec.ofNat 32 (0x06000000 + off), BitVec.ofNat 32 len⟩] else none) ∧
  (∀ a b : Nat, assemble (.writeBuf a b) =
    if a < 2 ^ 16 ∧ b < 2 ^ 8 then some [⟨BitVec.ofNat 32 (0x08000000 + a), BitVec.ofNat 32 b⟩] else none) ∧
  (∀ a w : Nat, assemble (.writeBuf4 a w) =
    if a < 2 ^ 16 ∧ w < 2 ^ 32 then some [⟨BitVec.ofNat 32 (0x09000000 + a), BitVec.ofNat 32 w⟩] else none) ∧
  (∀ l : Nat, assemble (.setBufLen l) =
    if l < 2 ^ 32 then some [⟨0x0A000000#32, BitVec.ofNat 32 l⟩] else none) ∧
  (∀ idx : Nat, assemble (.readReg idx) =
    if idx < 2 ^ 16 then some [⟨BitVec.ofNat 32 (0x0B000000 + idx), 0#32⟩] else none) ∧
  (∀ a : Nat, assemble (.readBuf a) =
    if a < 2 ^ 16 then some [⟨BitVec.ofNat 32 (0x0C000000 + a), 0#32⟩] else none) ∧
  (∀ c g : Nat, assemble (.rawWords c g) =
    if c < 2 ^ 32 ∧ g < 2 ^ 32 then some [⟨BitVec.ofNat 32 c, BitVec.ofNat 32 g⟩] else none) ∧
  (∀ n : Nat, (2 ^ 8 ≤ n → assemble (.updateByte n) = none) ∧
    (2 ^ 32 ≤ n → assemble (.selectPoly n) = none ∧ assemble (.start n) = none)) ∧
  (∀ (a : Nat) (bs : List Nat),
    ((∃ b ∈ bs, 2 ^ 8 ≤ b) → assemble (.updateBytes bs) = none ∧ assemble (.loadBytes a bs) = none) ∧
    (bs ≠ [] → 2 ^ 16 ≤ a → assemble (.loadBytes a bs) = none))

/-- R90: the `load_bytes` expansion the assembler writes is the host sequence of the facade, wherever every byte's
address is one of the buffer's 16-bit addresses. -/
def Obligations.LoadBytesExpandsAsTheFacadeDoes : Prop :=
  ∀ (a : Nat) (bs : List Byte), a + bs.length ≤ 2 ^ 16 →
    assemble (.loadBytes a (bs.map BitVec.toNat)) = some ((loadBytes a bs).map encode)

/-! ## The cycle counts and the reference port (informative in the spec) -/

/-- R261: every command ends, within 1 + max(BUF_SIZE, 256) cycles. -/
def Obligations.EveryCommandEndsInBoundedTime : Prop :=
  ∀ (skip : Bool) (c : Command) (s : State), s.Inv →
    1 ≤ referenceCycles skip c s ∧ referenceCycles skip c s ≤ 1 + max s.bufSize 256

/-- The reference port refines the machine: over any sequence of clock cycles, the block is where a run of the machine
over what the port performed leaves it, and the responses on the pins are the responses of that run, in order (R250,
R255, R262). The reading of the port is the model's (log 10), and so is what stays over a reset inside the run: the
responses given (log 2) and what is still offered (log 5). -/
def Obligations.ReferencePortRefinesTheMachine : Prop :=
  ∀ (p : PortParams) (s : PortState) (pins : List PortPins), s.block.Inv → s.block.inputs = [] →
    let r := portRun p s pins
    run r.2.2.length { s.block with inputs := r.2.2 } = .next r.2.1.block ∧
    r.2.1.block.responses = s.block.responses ++ r.1.filterMap PortOut.response

/-- A command is accepted in a cycle with cmd_valid and cmd_ready both high, and only there; acceptance gives it the
cycles of R261; and if rst_n stays high it is answered after exactly those, with the response of the machine's own
step, while the port is not ready before (R255, R261, R262). The reading of the port is the model's (log 10). -/
def Obligations.AcceptedCommandIsAnsweredOnTime : Prop :=
  (∀ (p : PortParams) (s : PortState) (pins : PortPins) (out : PortOut) (t : PortState) (events : List PortInput),
    portCycle p s pins = (out, t, events) →
      (out.cmdReady = true → pins.rstN = true ∧ t.boot = 0 ∧
        t.inFlight = if pins.cmdValid then some (pins.command, referenceCycles p.skip pins.command t.block) else none) ∧
      (out.cmdReady = false → ∀ c n, t.inFlight = some (c, n) → ∃ m, s.inFlight = some (c, m) ∧ m = n + 1)) ∧
  (∀ (p : PortParams) (s : PortState) (c : Command) (n : Nat) (pins : List PortPins),
    s.block.Inv → s.block.inputs = [] → s.boot = 0 → s.inFlight = some (c, n + 1) →
    pins.length = n + 1 → (∀ x ∈ pins, x.rstN = true) →
      ∃ (outs : List PortOut) (last : PortOut) (t : State),
        (portRun p s pins).1 = outs ++ [last] ∧
        (∀ o ∈ outs, o.cmdReady = false ∧ o.response = none) ∧
        step { s.block with inputs := [.command c] } = .next t ∧
        last.response.isSome = true ∧ last.response = t.responses.getLast? ∧
        (portRun p s pins).2.2 = [.command c]) ∧
  (∀ (p : PortParams) (s : PortState) (first : PortPins) (pins : List PortPins),
    s.block.Inv → s.block.inputs = [] → s.boot = 0 → s.inFlight = none →
    first.rstN = true → first.cmdValid = true →
    pins.length = referenceCycles p.skip first.command s.block → (∀ x ∈ pins, x.rstN = true) →
      ∃ (outs : List PortOut) (last : PortOut),
        (portRun p s (first :: pins)).1 = ⟨true, none⟩ :: outs ++ [last] ∧
        outs.length + 1 = referenceCycles p.skip first.command s.block ∧
        (∀ o ∈ outs, o.cmdReady = false ∧ o.response = none) ∧
        last.response.isSome = true ∧
        (portRun p s (first :: pins)).2.2 = [.command first.command])
end

