-- ==== Sys2Proof/Laws/Crc.lean ====
section
/-! SUPPORT. The table function and the fold: what a table entry is, one iteration of the builder as a linear map, and
the table index of a fold. -/

namespace Sys2Proof.Machine

/-- Entry i of table_of(P) is entry(P, i) (R111). -/
@[simp] theorem tableAt_tableOf (P : Word) (i : Byte) : tableAt (tableOf P) i = entry P i := by
  simp [tableAt, tableOf]

/-- Two tables with the same 256 entries are equal. -/
theorem table_ext {T U : Table} (h : ∀ i, tableAt T i = tableAt U i) : T = U := by
  obtain ⟨t, ht⟩ := T
  obtain ⟨u, hu⟩ := U
  have hl : t = u := by
    refine List.ext_getElem (ht.trans hu.symm) fun n h1 _ => ?_
    have := h (BitVec.ofNat 8 n)
    simpa [tableAt, Nat.mod_eq_of_lt (ht ▸ h1)] using this
  subst hl
  rfl

/-- The table index of a fold is b xor c[7:0] (R130). -/
theorem fold_index (c : Word) (b : Byte) :
    ((b.setWidth 32 ^^^ c) &&& 0xFF#32).setWidth 8 = b ^^^ c.setWidth 8 := by
  have ones : (0xFF#32).setWidth 8 = BitVec.allOnes 8 := by decide
  rw [BitVec.setWidth_and, ones, BitVec.and_allOnes, BitVec.setWidth_xor]
  simp

theorem fold_eq (T : Table) (c : Word) (b : Byte) :
    fold T c b = (c >>> 8) ^^^ tableAt T (b ^^^ c.setWidth 8) := by
  rw [fold, fold_index]

@[simp] theorem foldAll_nil (T : Table) (c : Word) : foldAll T c [] = c := rfl

@[simp] theorem foldAll_cons (T : Table) (c : Word) (b : Byte) (s : List Byte) :
    foldAll T c (b :: s) = foldAll T (fold T c b) s := rfl

/-- One iteration as one exclusive or. -/
theorem entryStep_eq (P c : Word) :
    entryStep P c = (c >>> 1) ^^^ (if c.getLsbD 0 then P else 0#32) := by
  unfold entryStep
  split <;> simp

/-- One iteration of the table builder is linear over exclusive or (R115). -/
theorem entryStep_xor (P c d : Word) : entryStep P (c ^^^ d) = entryStep P c ^^^ entryStep P d := by
  simp only [entryStep_eq, BitVec.getLsbD_xor, BitVec.ushiftRight_xor_distrib]
  cases c.getLsbD 0 <;> cases d.getLsbD 0 <;> simp
  · rw [BitVec.xor_assoc]
  · rw [BitVec.xor_assoc, BitVec.xor_assoc, BitVec.xor_comm P]
  · rw [BitVec.xor_assoc, BitVec.xor_comm P, BitVec.xor_assoc, BitVec.xor_self, BitVec.xor_zero]

/-- The iterations of R110 are linear over exclusive or. -/
theorem entrySteps_xor (P : Word) (k : Nat) (c d : Word) :
    entrySteps P k (c ^^^ d) = entrySteps P k c ^^^ entrySteps P k d := by
  induction k generalizing c d with
  | zero => rfl
  | succ k ih =>
    rw [entrySteps, entryStep_xor, ih]
    rfl

/-- The last iteration split off, where the definition splits off the first. -/
theorem entrySteps_succ (P : Word) (k : Nat) (c : Word) :
    entrySteps P (k + 1) c = entryStep P (entrySteps P k c) := by
  induction k generalizing c with
  | zero => rfl
  | succ k ih =>
    rw [entrySteps, ih]
    rfl

end Sys2Proof.Machine
end

