-- ==== Sys2Proof/Laws/Decode.lean ====
section
/-! SUPPORT. The fields of a CMD word and of the words the encoder writes, and what a decoded command says of its
words. -/

namespace Sys2Proof.Machine

@[simp] theorem cmdOpc_cmdWord (o : Byte) (i : Half) : cmdOpc (cmdWord o i) = o := by
  refine BitVec.eq_of_getLsbD_eq fun k hk => ?_
  simp only [cmdOpc, cmdWord, BitVec.getLsbD_extractLsb', BitVec.getLsbD_append, hk, decide_true, Bool.true_and]
  rw [if_neg (by omega), if_neg (by omega)]
  congr 1
  omega

@[simp] theorem cmdRsv_cmdWord (o : Byte) (i : Half) : cmdRsv (cmdWord o i) = 0#8 := by
  refine BitVec.eq_of_getLsbD_eq fun k hk => ?_
  simp only [cmdRsv, cmdWord, BitVec.getLsbD_extractLsb', BitVec.getLsbD_append, hk, decide_true, Bool.true_and]
  rw [if_neg (by omega), if_pos (by omega)]
  simp

@[simp] theorem cmdImm_cmdWord (o : Byte) (i : Half) : cmdImm (cmdWord o i) = i := by
  refine BitVec.eq_of_getLsbD_eq fun k hk => ?_
  simp only [cmdImm, cmdWord, BitVec.getLsbD_extractLsb', BitVec.getLsbD_append, hk, decide_true, Bool.true_and]
  rw [if_pos (by omega)]
  congr 1
  omega

/-- A CMD word with RSV zero is made of its opcode and immediate (R81). -/
theorem cmdWord_of_fields {c : Word} (h : cmdRsv c = 0#8) : cmdWord (cmdOpc c) (cmdImm c) = c := by
  refine BitVec.eq_of_getLsbD_eq fun k hk => ?_
  have hr : ∀ j, j < 8 → c.getLsbD (16 + j) = false := fun j hj => by
    have := congrArg (fun v : Byte => v.getLsbD j) h
    simpa [cmdRsv, BitVec.getLsbD_extractLsb', hj] using this
  simp only [cmdWord, cmdOpc, cmdImm, BitVec.getLsbD_append, BitVec.getLsbD_extractLsb']
  by_cases h1 : k < 16
  · simp [h1]
  · by_cases h2 : k - 16 < 8
    · rw [if_neg h1, if_pos h2]
      have := hr (k - 16) h2
      rw [show 16 + (k - 16) = k by omega] at this
      simp [this]
    · rw [if_neg h1, if_neg h2, show 24 + (k - 16 - 8) = k by omega]
      simp
      omega

@[simp] theorem immCount_setWidth (n : BitVec 2) : immCount (n.setWidth 16) = n := by
  refine BitVec.eq_of_getLsbD_eq fun k hk => ?_
  have : k < 16 := by omega
  simp [immCount, hk, this]

@[simp] theorem immCountRest_setWidth (n : BitVec 2) : immCountRest (n.setWidth 16) = 0#14 := by
  refine BitVec.eq_of_getLsbD_eq fun k hk => ?_
  simp [immCountRest]

/-- An immediate with IMM[15:2] zero is its count field (R82). -/
theorem imm_of_count {i : Half} (h : immCountRest i = 0#14) : (immCount i).setWidth 16 = i := by
  refine BitVec.eq_of_getLsbD_eq fun k hk => ?_
  have hr : ∀ j, j < 14 → i.getLsbD (2 + j) = false := fun j hj => by
    have := congrArg (fun v : BitVec 14 => v.getLsbD j) h
    simpa [immCountRest, BitVec.getLsbD_extractLsb', hj] using this
  simp only [immCount, BitVec.getLsbD_setWidth, BitVec.getLsbD_extractLsb', hk, decide_true, Bool.true_and]
  by_cases h1 : k < 2
  · simp [h1]
  · have := hr (k - 2) (by omega)
    rw [show 2 + (k - 2) = k by omega] at this
    simp [h1, this]

theorem byteCount_pos (n : BitVec 2) : 1 ≤ byteCount n := by unfold byteCount; omega

theorem byteCount_le (n : BitVec 2) : byteCount n ≤ 4 := by unfold byteCount; have := n.isLt; omega

/-- The low n bytes of a word, as a number (R84). -/
theorem toNat_lowBytes {n : Nat} (hn : n ≤ 4) (v : Word) : (lowBytes n v).toNat = v.toNat % 2 ^ (8 * n) := by
  have h : 2 ^ (8 * n) - 1 < 2 ^ 32 := by
    have : 2 ^ (8 * n) ≤ 2 ^ 32 := Nat.pow_le_pow_right (by omega) (by omega)
    have : 0 < 2 ^ (8 * n) := by positivity
    omega
  rw [lowBytes, BitVec.toNat_and, BitVec.toNat_ofNat, Nat.mod_eq_of_lt h, Nat.and_two_pow_sub_one_eq_mod]

theorem lowBytes_lt {n : Nat} (hn : n ≤ 4) (v : Word) : (lowBytes n v).toNat < 2 ^ (8 * n) := by
  rw [toNat_lowBytes hn]
  exact Nat.mod_lt _ (by positivity)

theorem lowBytes_of_lt {n : Nat} (hn : n ≤ 4) {v : Word} (hv : v.toNat < 2 ^ (8 * n)) : lowBytes n v = v := by
  refine BitVec.eq_of_toNat_eq ?_
  rw [toNat_lowBytes hn, Nat.mod_eq_of_lt hv]

@[simp] theorem byteOf_setWidth (b : Byte) : byteOf (b.setWidth 32) 0 = b := by
  refine BitVec.eq_of_getLsbD_eq fun k hk => ?_
  have : k < 32 := by omega
  simp [byteOf, hk, this]

/-- The bytes of a packed word are the bytes packed (R52, R90). -/
theorem bytesOf_packWord (b0 b1 b2 b3 : Byte) : bytesOf 4 (packWord b0 b1 b2 b3) = [b0, b1, b2, b3] := by
  have h : ∀ j, j < 4 → byteOf (packWord b0 b1 b2 b3) j = [b0, b1, b2, b3].getD j 0#8 := fun j hj => by
    refine BitVec.eq_of_getLsbD_eq fun k hk => ?_
    simp only [byteOf, packWord, BitVec.getLsbD_extractLsb', BitVec.getLsbD_append, hk, decide_true, Bool.true_and]
    interval_cases j
    · rw [if_pos (by omega)]; simp
    · rw [if_neg (by omega), if_pos (by omega)]; simp
    · rw [if_neg (by omega), if_neg (by omega), if_pos (by omega)]; simp; congr 1; omega
    · rw [if_neg (by omega), if_neg (by omega), if_neg (by omega)]; simp; congr 1; omega
  simp [bytesOf, List.range_succ, h 0, h 1, h 2, h 3]

theorem bytesOf_prefix {n : Nat} (hn : n ≤ 4) (v : Word) : bytesOf n v = (bytesOf 4 v).take n := by
  simp [bytesOf, ← List.map_take, List.take_range, Nat.min_eq_left hn]

@[simp] theorem length_bytesOf (n : Nat) (v : Word) : (bytesOf n v).length = n := by simp [bytesOf]

end Sys2Proof.Machine

namespace Sys2Proof

open Machine

/-- A decoded command has RSV zero, and its opcode, immediate and ARG give it (R86). -/
theorem decode_ok {c : Command} {i : Instr} (h : decode c = .ok i) :
    cmdRsv c.cmd = 0#8 ∧ decodeFields (cmdOpc c.cmd) (cmdImm c.cmd) c.arg = .ok i := by
  unfold decode at h
  split at h
  · cases h
  · exact ⟨not_not.1 ‹_›, h⟩

theorem decodeZ_ok {imm : Half} {i j : Instr} : decodeZ imm i = .ok j ↔ imm = 0#16 ∧ i = j := by
  unfold decodeZ
  split <;> simp_all

theorem decodeN_ok {imm : Half} {arg : Word} {j : Instr} :
    decodeN imm arg = .ok j ↔
      immCountRest imm = 0#14 ∧ .updateImm (immCount imm) (lowBytes (byteCount (immCount imm)) arg) = j := by
  unfold decodeN
  split <;> simp_all

/-- An encoded command decodes through its fields. -/
theorem decode_cmdWord (o : Byte) (i : Half) (arg : Word) :
    decode ⟨cmdWord o i, arg⟩ = decodeFields o i arg := by
  simp [decode]

/-- The opcode map read backwards: the opcode, the immediate and the operands of each decoded command (R85, R86). -/
theorem decodeFields_ok {op : Byte} {imm : Half} {arg : Word} {i : Instr} (h : decodeFields op imm arg = .ok i) :
    (op = 0x00#8 ∧ imm = 0#16 ∧ i = .nop) ∨
    (op = 0x01#8 ∧ imm = 0#16 ∧ i = .setPoly arg) ∨
    (op = 0x02#8 ∧ imm = 0#16 ∧ i = .buildTable) ∨
    (op = 0x03#8 ∧ imm = 0#16 ∧ i = .setSeed arg) ∨
    (op = 0x04#8 ∧ imm = 0#16 ∧ i = .reset) ∨
    (op = 0x05#8 ∧ immCountRest imm = 0#14 ∧
      i = .updateImm (immCount imm) (lowBytes (byteCount (immCount imm)) arg)) ∨
    (op = 0x06#8 ∧ i = .updateBuf imm arg) ∨
    (op = 0x07#8 ∧ imm = 0#16 ∧ i = .finalize) ∨
    (op = 0x08#8 ∧ i = .writeBuf imm (byteOf arg 0)) ∨
    (op = 0x09#8 ∧ i = .writeBuf4 imm arg) ∨
    (op = 0x0A#8 ∧ imm = 0#16 ∧ i = .setBufLen arg) ∨
    (op = 0x0B#8 ∧ i = .readReg imm) ∨
    (op = 0x0C#8 ∧ i = .readBuf imm) ∨
    (op = 0x0D#8 ∧ imm = 0#16 ∧ i = .clearErr) := by
  have hop : op = BitVec.ofNat 8 op.toNat := BitVec.eq_of_toNat_eq (by simp)
  unfold decodeFields at h
  split at h <;> rename_i ho <;> (try rw [ho] at hop) <;> (try simp only [decodeZ_ok, decodeN_ok] at h) <;>
    first | (subst hop; obtain ⟨h1, rfl⟩ := h; simp [h1]) | (subst hop; cases h; simp) | cases h

end Sys2Proof
end

