-- ==== Sys2Proof/Laws/Memory.lean ====
section
/-! SUPPORT. The laws of the buffer: a read after a write, every other address left alone, and the canonical form and
the address bound kept by every write. -/

namespace Sys2Proof.Machine

@[simp] theorem readByte_nil (a : Nat) : Memory.readByte [] a = blankByte := rfl

theorem readByte_cons (k : Nat) (v : Byte) (m : Memory) (a : Nat) :
    Memory.readByte ((k, v) :: m) a = if k = a then v else Memory.readByte m a := rfl

/-- An address that no entry lists reads as blank. -/
theorem readByte_of_absent {m : Memory} {a : Nat} (h : ∀ c ∈ m, c.1 ≠ a) : m.readByte a = blankByte := by
  induction m with
  | nil => rfl
  | cons c m ih =>
    obtain ⟨k, v⟩ := c
    rw [readByte_cons, if_neg (h (k, v) (by simp)), ih fun d hd => h d (by simp [hd])]

theorem wf_nil : Memory.wf [] := ⟨List.Pairwise.nil, by simp⟩

/-- The tail of a canonical memory is canonical, and its addresses lie above the head's. -/
theorem wf_cons {k : Nat} {v : Byte} {m : Memory} :
    Memory.wf ((k, v) :: m) ↔ (∀ c ∈ m, k < c.1) ∧ v ≠ blankByte ∧ Memory.wf m := by
  simp [Memory.wf, List.pairwise_cons]
  tauto

theorem consByte_blank (a : Nat) (m : Memory) : Memory.consByte a blankByte m = m := rfl

theorem mem_consByte {a : Nat} {b : Byte} {m : Memory} {c : Host.Cell} (h : c ∈ Memory.consByte a b m) :
    c = (a, b) ∨ c ∈ m := by
  unfold Memory.consByte at h
  split at h <;> simp_all

theorem wf_consByte {a : Nat} {b : Byte} {m : Memory} (hm : m.wf) (ha : ∀ c ∈ m, a < c.1) :
    (Memory.consByte a b m).wf := by
  unfold Memory.consByte
  split
  · exact hm
  · exact wf_cons.2 ⟨ha, ‹_›, hm⟩

theorem readByte_consByte {a : Nat} {b : Byte} {m : Memory} (ha : ∀ c ∈ m, a < c.1) (x : Nat) :
    (Memory.consByte a b m).readByte x = if a = x then b else m.readByte x := by
  unfold Memory.consByte
  split
  · next hb =>
    by_cases h : a = x
    · subst h
      rw [if_pos rfl, hb, readByte_of_absent fun c hc => (ha c hc).ne']
    · rw [if_neg h]
  · exact readByte_cons ..

/-- Every entry of the memory after a write is the written one or was there before. -/
theorem mem_writeByte {m : Memory} {a : Nat} {b : Byte} {c : Host.Cell} (h : c ∈ m.writeByte a b) :
    c = (a, b) ∨ c ∈ m := by
  induction m with
  | nil => simpa using mem_consByte h
  | cons d m ih =>
    obtain ⟨k, v⟩ := d
    rw [Memory.writeByte] at h
    split at h
    · exact mem_consByte h
    · split at h
      · rcases mem_consByte h with h | h <;> simp [h]
      · rcases List.mem_cons.1 h with h | h
        · simp [h]
        · rcases ih h with h | h <;> simp [h]

/-- A write keeps the canonical form. -/
theorem wf_writeByte {m : Memory} (hm : m.wf) (a : Nat) (b : Byte) : (m.writeByte a b).wf := by
  induction m with
  | nil => exact wf_consByte wf_nil (by simp)
  | cons d m ih =>
    obtain ⟨k, v⟩ := d
    obtain ⟨hk, hv, hm'⟩ := wf_cons.1 hm
    rw [Memory.writeByte]
    split
    · next h =>
      refine wf_consByte hm fun c hc => ?_
      rcases List.mem_cons.1 hc with rfl | hc
      · exact h
      · exact h.trans (hk c hc)
    · split
      · next h => exact wf_consByte hm' fun c hc => h ▸ hk c hc
      · next h h' =>
        refine wf_cons.2 ⟨fun c hc => ?_, hv, ih hm'⟩
        rcases mem_writeByte hc with rfl | hc
        · simp only; omega
        · exact hk c hc

/-- Reading after a write: the written byte at its address, and every other address as before. -/
theorem readByte_writeByte {m : Memory} (hm : m.wf) (a : Nat) (b : Byte) (x : Nat) :
    (m.writeByte a b).readByte x = if a = x then b else m.readByte x := by
  induction m with
  | nil => exact readByte_consByte (by simp) x
  | cons d m ih =>
    obtain ⟨k, v⟩ := d
    obtain ⟨hk, _, hm'⟩ := wf_cons.1 hm
    rw [Memory.writeByte]
    split
    · next h =>
      refine readByte_consByte (fun c hc => ?_) x
      rcases List.mem_cons.1 hc with rfl | hc
      · exact h
      · exact h.trans (hk c hc)
    · split
      · next h =>
        subst h
        rw [readByte_consByte hk, readByte_cons]
        split <;> rfl
      · next h h' =>
        rw [readByte_cons, readByte_cons, ih hm']
        split
        · next hx => rw [if_neg (hx ▸ h')]
        · rfl

theorem wf_writeBytes {m : Memory} (hm : m.wf) (a : Nat) (bs : List Byte) : (m.writeBytes a bs).wf := by
  induction bs generalizing m a with
  | nil => exact hm
  | cons b bs ih => exact ih (wf_writeByte hm a b) (a + 1)

theorem mem_writeBytes {m : Memory} {a : Nat} {bs : List Byte} {c : Host.Cell} (h : c ∈ m.writeBytes a bs) :
    (a ≤ c.1 ∧ c.1 < a + bs.length) ∨ c ∈ m := by
  induction bs generalizing m a with
  | nil => exact Or.inr h
  | cons b bs ih =>
    rcases ih h with h | h
    · simp only [List.length_cons]; omega
    · rcases mem_writeByte h with rfl | h
      · simp only [List.length_cons]; omega
      · exact Or.inr h

/-- Reading after a write of consecutive bytes. -/
theorem readByte_writeBytes {m : Memory} (hm : m.wf) (a : Nat) (bs : List Byte) (x : Nat) :
    (m.writeBytes a bs).readByte x =
      if h : a ≤ x ∧ x < a + bs.length then bs[x - a]'(by omega) else m.readByte x := by
  induction bs generalizing m a with
  | nil => rw [dif_neg (by simp)]; rfl
  | cons b bs ih =>
    rw [Memory.writeBytes, ih (wf_writeByte hm a b), readByte_writeByte hm]
    by_cases hx : a = x
    · subst hx
      rw [dif_neg (by omega), if_pos rfl, dif_pos (by simp)]
      simp
    · rw [if_neg hx]
      by_cases h : a + 1 ≤ x ∧ x < a + 1 + bs.length
      · rw [dif_pos h, dif_pos (by simp only [List.length_cons]; omega)]
        have e : x - a = (x - (a + 1)) + 1 := by omega
        simp only [e, List.getElem_cons_succ]
      · rw [dif_neg h, dif_neg (by simp only [List.length_cons]; omega)]

/-- Two canonical memories that read alike at every address are the same list. -/
theorem memory_ext {m n : Memory} (hm : m.wf) (hn : n.wf) (h : ∀ a, m.readByte a = n.readByte a) : m = n := by
  induction m generalizing n with
  | nil =>
    cases n with
    | nil => rfl
    | cons d n =>
      obtain ⟨l, w⟩ := d
      have := h l
      rw [readByte_nil, readByte_cons, if_pos rfl] at this
      exact absurd this.symm (wf_cons.1 hn).2.1
  | cons c m ih =>
    obtain ⟨k, v⟩ := c
    obtain ⟨hk, hv, hm'⟩ := wf_cons.1 hm
    cases n with
    | nil =>
      have := h k
      rw [readByte_nil, readByte_cons, if_pos rfl] at this
      exact absurd this hv
    | cons d n =>
      obtain ⟨l, w⟩ := d
      obtain ⟨hl, hw, hn'⟩ := wf_cons.1 hn
      have below : ∀ {p : Memory} {x : Nat}, (∀ c ∈ p, x < c.1) → p.readByte x = blankByte := fun hp =>
        readByte_of_absent fun c hc => (hp c hc).ne'
      have hkl : k = l := by
        rcases Nat.lt_trichotomy k l with hlt | heq | hgt
        · have := h k
          rw [readByte_cons, if_pos rfl, readByte_cons, if_neg hlt.ne', below fun c hc => hlt.trans (hl c hc)] at this
          exact absurd this hv
        · exact heq
        · have := h l
          rw [readByte_cons, if_neg hgt.ne', readByte_cons, if_pos rfl, below fun c hc => hgt.trans (hk c hc)] at this
          exact absurd this.symm hw
      subst hkl
      have hvw : v = w := by
        have := h k
        rwa [readByte_cons, if_pos rfl, readByte_cons, if_pos rfl] at this
      subst hvw
      rw [ih hm' hn' fun a => ?_]
      by_cases ha : k = a
      · subst ha
        rw [below hk, below hl]
      · have := h a
        rwa [readByte_cons, if_neg ha, readByte_cons, if_neg ha] at this

/-- The same bytes written twice are written once. -/
theorem writeBytes_twice {m : Memory} (hm : m.wf) (a : Nat) (bs : List Byte) :
    (m.writeBytes a bs).writeBytes a bs = m.writeBytes a bs := by
  have h1 := wf_writeBytes hm a bs
  refine memory_ext (wf_writeBytes h1 a bs) h1 fun x => ?_
  rw [readByte_writeBytes h1, readByte_writeBytes hm]
  split <;> rfl

@[simp] theorem length_readBytes (m : Memory) (a n : Nat) : (m.readBytes a n).length = n := by
  simp [Memory.readBytes]

/-- The bytes of a wide read are the bytes of the addresses in order. -/
theorem readBytes_eq (m : Memory) (a n : Nat) :
    m.readBytes a n = (List.range n).map fun j => m.readByte (a + j) := by
  simp [Memory.readBytes, List.range'_eq_map_range, Function.comp_def]

end Sys2Proof.Machine
end

