-- ==== Sys2Proof/Laws/State.lean ====
section
/-! SUPPORT. What each named update of the state does to each field, true by unfolding, so that no later proof unfolds
an update. -/

namespace Sys2Proof.Machine

variable (s : State)

/-! ## respond -/

@[simp] theorem State.respond_cfg (c : Nibble) (d : Word) : (s.respond c d).cfg = s.cfg := rfl
@[simp] theorem State.respond_poly (c : Nibble) (d : Word) : (s.respond c d).poly = s.poly := rfl
@[simp] theorem State.respond_seed (c : Nibble) (d : Word) : (s.respond c d).seed = s.seed := rfl
@[simp] theorem State.respond_crc (c : Nibble) (d : Word) : (s.respond c d).crc = s.crc := rfl
@[simp] theorem State.respond_result (c : Nibble) (d : Word) : (s.respond c d).result = s.result := rfl
@[simp] theorem State.respond_phase (c : Nibble) (d : Word) : (s.respond c d).phase = s.phase := rfl
@[simp] theorem State.respond_table (c : Nibble) (d : Word) : (s.respond c d).table = s.table := rfl
@[simp] theorem State.respond_tblPoly (c : Nibble) (d : Word) : (s.respond c d).tblPoly = s.tblPoly := rfl
@[simp] theorem State.respond_buf (c : Nibble) (d : Word) : (s.respond c d).buf = s.buf := rfl
@[simp] theorem State.respond_bufLen (c : Nibble) (d : Word) : (s.respond c d).bufLen = s.bufLen := rfl
@[simp] theorem State.respond_err (c : Nibble) (d : Word) : (s.respond c d).err = s.err := rfl
@[simp] theorem State.respond_errCode (c : Nibble) (d : Word) : (s.respond c d).errCode = s.errCode := rfl
@[simp] theorem State.respond_inputs (c : Nibble) (d : Word) : (s.respond c d).inputs = s.inputs := rfl
@[simp] theorem State.respond_responses (c : Nibble) (d : Word) : (s.respond c d).responses = s.responses ++ [⟨c, d⟩] := rfl

/-! ## recordError -/

@[simp] theorem State.recordError_cfg (e : ErrorKind) : (s.recordError e).cfg = s.cfg := rfl
@[simp] theorem State.recordError_poly (e : ErrorKind) : (s.recordError e).poly = s.poly := rfl
@[simp] theorem State.recordError_seed (e : ErrorKind) : (s.recordError e).seed = s.seed := rfl
@[simp] theorem State.recordError_crc (e : ErrorKind) : (s.recordError e).crc = s.crc := rfl
@[simp] theorem State.recordError_result (e : ErrorKind) : (s.recordError e).result = s.result := rfl
@[simp] theorem State.recordError_phase (e : ErrorKind) : (s.recordError e).phase = s.phase := rfl
@[simp] theorem State.recordError_table (e : ErrorKind) : (s.recordError e).table = s.table := rfl
@[simp] theorem State.recordError_tblPoly (e : ErrorKind) : (s.recordError e).tblPoly = s.tblPoly := rfl
@[simp] theorem State.recordError_buf (e : ErrorKind) : (s.recordError e).buf = s.buf := rfl
@[simp] theorem State.recordError_bufLen (e : ErrorKind) : (s.recordError e).bufLen = s.bufLen := rfl
@[simp] theorem State.recordError_err (e : ErrorKind) : (s.recordError e).err = true := rfl
@[simp] theorem State.recordError_errCode (e : ErrorKind) : (s.recordError e).errCode = if s.err then s.errCode else errorCode e := rfl
@[simp] theorem State.recordError_inputs (e : ErrorKind) : (s.recordError e).inputs = s.inputs := rfl
@[simp] theorem State.recordError_responses (e : ErrorKind) : (s.recordError e).responses = s.responses := rfl

/-! ## clearRecord -/

@[simp] theorem State.clearRecord_cfg : (s.clearRecord).cfg = s.cfg := rfl
@[simp] theorem State.clearRecord_poly : (s.clearRecord).poly = s.poly := rfl
@[simp] theorem State.clearRecord_seed : (s.clearRecord).seed = s.seed := rfl
@[simp] theorem State.clearRecord_crc : (s.clearRecord).crc = s.crc := rfl
@[simp] theorem State.clearRecord_result : (s.clearRecord).result = s.result := rfl
@[simp] theorem State.clearRecord_phase : (s.clearRecord).phase = s.phase := rfl
@[simp] theorem State.clearRecord_table : (s.clearRecord).table = s.table := rfl
@[simp] theorem State.clearRecord_tblPoly : (s.clearRecord).tblPoly = s.tblPoly := rfl
@[simp] theorem State.clearRecord_buf : (s.clearRecord).buf = s.buf := rfl
@[simp] theorem State.clearRecord_bufLen : (s.clearRecord).bufLen = s.bufLen := rfl
@[simp] theorem State.clearRecord_err : (s.clearRecord).err = false := rfl
@[simp] theorem State.clearRecord_errCode : (s.clearRecord).errCode = 0#4 := rfl
@[simp] theorem State.clearRecord_inputs : (s.clearRecord).inputs = s.inputs := rfl
@[simp] theorem State.clearRecord_responses : (s.clearRecord).responses = s.responses := rfl

/-! ## memWrite -/

@[simp] theorem State.memWrite_cfg (a n : Nat) (v : Word) : (s.memWrite a n v).cfg = s.cfg := rfl
@[simp] theorem State.memWrite_poly (a n : Nat) (v : Word) : (s.memWrite a n v).poly = s.poly := rfl
@[simp] theorem State.memWrite_seed (a n : Nat) (v : Word) : (s.memWrite a n v).seed = s.seed := rfl
@[simp] theorem State.memWrite_crc (a n : Nat) (v : Word) : (s.memWrite a n v).crc = s.crc := rfl
@[simp] theorem State.memWrite_result (a n : Nat) (v : Word) : (s.memWrite a n v).result = s.result := rfl
@[simp] theorem State.memWrite_phase (a n : Nat) (v : Word) : (s.memWrite a n v).phase = s.phase := rfl
@[simp] theorem State.memWrite_table (a n : Nat) (v : Word) : (s.memWrite a n v).table = s.table := rfl
@[simp] theorem State.memWrite_tblPoly (a n : Nat) (v : Word) : (s.memWrite a n v).tblPoly = s.tblPoly := rfl
@[simp] theorem State.memWrite_buf (a n : Nat) (v : Word) : (s.memWrite a n v).buf = s.buf.writeBytes a (bytesOf n v) := rfl
@[simp] theorem State.memWrite_bufLen (a n : Nat) (v : Word) : (s.memWrite a n v).bufLen = s.bufLen := rfl
@[simp] theorem State.memWrite_err (a n : Nat) (v : Word) : (s.memWrite a n v).err = s.err := rfl
@[simp] theorem State.memWrite_errCode (a n : Nat) (v : Word) : (s.memWrite a n v).errCode = s.errCode := rfl
@[simp] theorem State.memWrite_inputs (a n : Nat) (v : Word) : (s.memWrite a n v).inputs = s.inputs := rfl
@[simp] theorem State.memWrite_responses (a n : Nat) (v : Word) : (s.memWrite a n v).responses = s.responses := rfl

/-! ## foldBytes -/

@[simp] theorem State.foldBytes_cfg (bs : List Byte) : (s.foldBytes bs).cfg = s.cfg := rfl
@[simp] theorem State.foldBytes_poly (bs : List Byte) : (s.foldBytes bs).poly = s.poly := rfl
@[simp] theorem State.foldBytes_seed (bs : List Byte) : (s.foldBytes bs).seed = s.seed := rfl
@[simp] theorem State.foldBytes_crc (bs : List Byte) : (s.foldBytes bs).crc = foldAll s.table s.crc bs := rfl
@[simp] theorem State.foldBytes_result (bs : List Byte) : (s.foldBytes bs).result = s.result := rfl
@[simp] theorem State.foldBytes_phase (bs : List Byte) : (s.foldBytes bs).phase = s.phase := rfl
@[simp] theorem State.foldBytes_table (bs : List Byte) : (s.foldBytes bs).table = s.table := rfl
@[simp] theorem State.foldBytes_tblPoly (bs : List Byte) : (s.foldBytes bs).tblPoly = s.tblPoly := rfl
@[simp] theorem State.foldBytes_buf (bs : List Byte) : (s.foldBytes bs).buf = s.buf := rfl
@[simp] theorem State.foldBytes_bufLen (bs : List Byte) : (s.foldBytes bs).bufLen = s.bufLen := rfl
@[simp] theorem State.foldBytes_err (bs : List Byte) : (s.foldBytes bs).err = s.err := rfl
@[simp] theorem State.foldBytes_errCode (bs : List Byte) : (s.foldBytes bs).errCode = s.errCode := rfl
@[simp] theorem State.foldBytes_inputs (bs : List Byte) : (s.foldBytes bs).inputs = s.inputs := rfl
@[simp] theorem State.foldBytes_responses (bs : List Byte) : (s.foldBytes bs).responses = s.responses := rfl

/-! ## accept -/

@[simp] theorem State.accept_cfg (rest : List PortInput) : (s.accept rest).cfg = s.cfg := rfl
@[simp] theorem State.accept_poly (rest : List PortInput) : (s.accept rest).poly = s.poly := rfl
@[simp] theorem State.accept_seed (rest : List PortInput) : (s.accept rest).seed = s.seed := rfl
@[simp] theorem State.accept_crc (rest : List PortInput) : (s.accept rest).crc = s.crc := rfl
@[simp] theorem State.accept_result (rest : List PortInput) : (s.accept rest).result = s.result := rfl
@[simp] theorem State.accept_phase (rest : List PortInput) : (s.accept rest).phase = s.phase := rfl
@[simp] theorem State.accept_table (rest : List PortInput) : (s.accept rest).table = s.table := rfl
@[simp] theorem State.accept_tblPoly (rest : List PortInput) : (s.accept rest).tblPoly = s.tblPoly := rfl
@[simp] theorem State.accept_buf (rest : List PortInput) : (s.accept rest).buf = s.buf := rfl
@[simp] theorem State.accept_bufLen (rest : List PortInput) : (s.accept rest).bufLen = s.bufLen := rfl
@[simp] theorem State.accept_err (rest : List PortInput) : (s.accept rest).err = s.err := rfl
@[simp] theorem State.accept_errCode (rest : List PortInput) : (s.accept rest).errCode = s.errCode := rfl
@[simp] theorem State.accept_inputs (rest : List PortInput) : (s.accept rest).inputs = rest := rfl
@[simp] theorem State.accept_responses (rest : List PortInput) : (s.accept rest).responses = s.responses := rfl

/-! ## withFetchWord -/

@[simp] theorem State.withFetchWord_cfg (nbits w : Nat) : (s.withFetchWord nbits w).cfg = s.cfg := rfl
@[simp] theorem State.withFetchWord_poly (nbits w : Nat) : (s.withFetchWord nbits w).poly = s.poly := rfl
@[simp] theorem State.withFetchWord_seed (nbits w : Nat) : (s.withFetchWord nbits w).seed = s.seed := rfl
@[simp] theorem State.withFetchWord_crc (nbits w : Nat) : (s.withFetchWord nbits w).crc = s.crc := rfl
@[simp] theorem State.withFetchWord_result (nbits w : Nat) : (s.withFetchWord nbits w).result = s.result := rfl
@[simp] theorem State.withFetchWord_phase (nbits w : Nat) : (s.withFetchWord nbits w).phase = s.phase := rfl
@[simp] theorem State.withFetchWord_table (nbits w : Nat) : (s.withFetchWord nbits w).table = s.table := rfl
@[simp] theorem State.withFetchWord_tblPoly (nbits w : Nat) : (s.withFetchWord nbits w).tblPoly = s.tblPoly := rfl
@[simp] theorem State.withFetchWord_buf (nbits w : Nat) : (s.withFetchWord nbits w).buf = s.buf := rfl
@[simp] theorem State.withFetchWord_bufLen (nbits w : Nat) : (s.withFetchWord nbits w).bufLen = s.bufLen := rfl
@[simp] theorem State.withFetchWord_err (nbits w : Nat) : (s.withFetchWord nbits w).err = s.err := rfl
@[simp] theorem State.withFetchWord_errCode (nbits w : Nat) : (s.withFetchWord nbits w).errCode = s.errCode := rfl
@[simp] theorem State.withFetchWord_inputs (nbits w : Nat) : (s.withFetchWord nbits w).inputs = .command (tableCommand nbits w) :: s.inputs := rfl
@[simp] theorem State.withFetchWord_responses (nbits w : Nat) : (s.withFetchWord nbits w).responses = s.responses := rfl

/-! ## hardwareReset -/

@[simp] theorem State.hardwareReset_cfg : (s.hardwareReset).cfg = s.cfg := rfl
@[simp] theorem State.hardwareReset_poly : (s.hardwareReset).poly = defaultPoly := rfl
@[simp] theorem State.hardwareReset_seed : (s.hardwareReset).seed = defaultSeed := rfl
@[simp] theorem State.hardwareReset_crc : (s.hardwareReset).crc = defaultSeed := rfl
@[simp] theorem State.hardwareReset_result : (s.hardwareReset).result = 0#32 := rfl
@[simp] theorem State.hardwareReset_phase : (s.hardwareReset).phase = .opened := rfl
@[simp] theorem State.hardwareReset_table : (s.hardwareReset).table = tableOf defaultPoly := rfl
@[simp] theorem State.hardwareReset_tblPoly : (s.hardwareReset).tblPoly = defaultPoly := rfl
@[simp] theorem State.hardwareReset_buf : (s.hardwareReset).buf = [] := rfl
@[simp] theorem State.hardwareReset_bufLen : (s.hardwareReset).bufLen = 0#16 := rfl
@[simp] theorem State.hardwareReset_err : (s.hardwareReset).err = false := rfl
@[simp] theorem State.hardwareReset_errCode : (s.hardwareReset).errCode = 0#4 := rfl
@[simp] theorem State.hardwareReset_inputs : (s.hardwareReset).inputs = s.inputs := rfl
@[simp] theorem State.hardwareReset_responses : (s.hardwareReset).responses = s.responses := rfl

/-! ## resetWith -/

@[simp] theorem State.resetWith_cfg (cfg : Config) (i : List PortInput) (r : List Response) :
    (State.resetWith cfg i r).cfg = cfg := rfl
@[simp] theorem State.resetWith_poly (cfg : Config) (i : List PortInput) (r : List Response) :
    (State.resetWith cfg i r).poly = defaultPoly := rfl
@[simp] theorem State.resetWith_seed (cfg : Config) (i : List PortInput) (r : List Response) :
    (State.resetWith cfg i r).seed = defaultSeed := rfl
@[simp] theorem State.resetWith_crc (cfg : Config) (i : List PortInput) (r : List Response) :
    (State.resetWith cfg i r).crc = defaultSeed := rfl
@[simp] theorem State.resetWith_result (cfg : Config) (i : List PortInput) (r : List Response) :
    (State.resetWith cfg i r).result = 0#32 := rfl
@[simp] theorem State.resetWith_phase (cfg : Config) (i : List PortInput) (r : List Response) :
    (State.resetWith cfg i r).phase = .opened := rfl
@[simp] theorem State.resetWith_table (cfg : Config) (i : List PortInput) (r : List Response) :
    (State.resetWith cfg i r).table = tableOf defaultPoly := rfl
@[simp] theorem State.resetWith_tblPoly (cfg : Config) (i : List PortInput) (r : List Response) :
    (State.resetWith cfg i r).tblPoly = defaultPoly := rfl
@[simp] theorem State.resetWith_buf (cfg : Config) (i : List PortInput) (r : List Response) :
    (State.resetWith cfg i r).buf = [] := rfl
@[simp] theorem State.resetWith_bufLen (cfg : Config) (i : List PortInput) (r : List Response) :
    (State.resetWith cfg i r).bufLen = 0#16 := rfl
@[simp] theorem State.resetWith_err (cfg : Config) (i : List PortInput) (r : List Response) :
    (State.resetWith cfg i r).err = false := rfl
@[simp] theorem State.resetWith_errCode (cfg : Config) (i : List PortInput) (r : List Response) :
    (State.resetWith cfg i r).errCode = 0#4 := rfl
@[simp] theorem State.resetWith_inputs (cfg : Config) (i : List PortInput) (r : List Response) :
    (State.resetWith cfg i r).inputs = i := rfl
@[simp] theorem State.resetWith_responses (cfg : Config) (i : List PortInput) (r : List Response) :
    (State.resetWith cfg i r).responses = r := rfl

end Sys2Proof.Machine
end

