-- ==== Sys2Proof/Laws/Step.lean ====
section
/-! SUPPORT. What the shared operations, a command's meaning and a step can do, said once. -/

namespace Sys2Proof.Machine

variable {s t : State}

@[simp] theorem complete_eq (d : Word) (s : State) : complete d s = .next (s.respond okCode d) := rfl

@[simp] theorem reject_eq (e : ErrorKind) (s : State) :
    reject e s = .next ((s.recordError e).respond (errorCode e) 0#32) := rfl

@[simp] theorem rejectIllegal_eq (why : IllegalWord) (s : State) : rejectIllegal why s = reject .illegal s := rfl

theorem memRead_of_le {a n : Nat} (h : a + n ≤ s.bufSize) : s.memRead a n = some (s.buf.readBytes a n) := by
  rw [State.memRead, if_pos h]

theorem memRead_of_gt {a n : Nat} (h : s.bufSize < a + n) : s.memRead a n = none := by
  rw [State.memRead, if_neg (by omega)]

/-- The mapped indices below 0x0100 and the table's (R38). -/
theorem readIndex_table (s : State) (i : Byte) : s.readIndex (0x0100#16 + i.setWidth 16) = some (tableAt s.table i) := by
  have hi := i.isLt
  have h : (0x0100#16 + i.setWidth 16).toNat = 0x0100 + i.toNat := by
    simp only [BitVec.toNat_add, BitVec.toNat_ofNat, BitVec.toNat_setWidth]
    omega
  unfold State.readIndex
  rw [h]
  split <;> try omega
  rw [if_pos (by omega)]
  simp

/-- Exactly the indices outside the register map have no value (R38). -/
theorem readIndex_none_iff (s : State) (idx : Half) : s.readIndex idx = none ↔ ¬ mappedIndex idx := by
  unfold State.readIndex mappedIndex
  split <;> try (rename_i h; simp [h]; done)
  simp only [imp_false] at *
  by_cases h : 256 ≤ idx.toNat ∧ idx.toNat ≤ 511
  · rw [if_pos h]
    simp
    omega
  · rw [if_neg h]
    simp
    omega

/-- A meaning's answer: a rejection, or a completion that keeps the port and the parameters; a fault in `update_buf`
alone. -/
theorem exec_cases (i : Instr) (s : State) :
    (∃ e, exec i s = reject e s) ∨
    (∃ d u, exec i s = complete d u ∧ u.inputs = s.inputs ∧ u.responses = s.responses ∧ u.cfg = s.cfg) ∨
    (∃ off len, i = .updateBuf off len ∧ s.bufSize < s.bufLen.toNat ∧ exec i s = .fault .bufferHole) := by
  cases i with
  | nop => exact .inr (.inl ⟨_, _, rfl, rfl, rfl, rfl⟩)
  | setPoly p => exact .inr (.inl ⟨_, _, rfl, rfl, rfl, rfl⟩)
  | buildTable =>
    simp only [exec, execBuildTable]
    split
    · exact .inl ⟨_, rfl⟩
    · exact .inr (.inl ⟨_, _, rfl, rfl, rfl, rfl⟩)
  | setSeed v => exact .inr (.inl ⟨_, _, rfl, rfl, rfl, rfl⟩)
  | reset => exact .inr (.inl ⟨_, _, rfl, rfl, rfl, rfl⟩)
  | updateImm nm1 v =>
    simp only [exec, execUpdateImm]
    split
    · exact .inl ⟨_, rfl⟩
    · exact .inr (.inl ⟨_, _, rfl, rfl, rfl, rfl⟩)
  | updateBuf off len =>
    simp only [exec, execUpdateBuf]
    split
    · exact .inl ⟨_, rfl⟩
    · split
      · exact .inl ⟨_, rfl⟩
      · next hr =>
        by_cases hb : off.toNat + len.toNat ≤ s.bufSize
        · rw [memRead_of_le hb]
          exact .inr (.inl ⟨_, _, rfl, rfl, rfl, rfl⟩)
        · rw [memRead_of_gt (by omega)]
          exact .inr (.inr ⟨_, _, rfl, by omega, rfl⟩)
  | finalize => exact .inr (.inl ⟨_, _, rfl, rfl, rfl, rfl⟩)
  | writeBuf a b =>
    simp only [exec, execWriteBuf]
    split
    · exact .inl ⟨_, rfl⟩
    · exact .inr (.inl ⟨_, _, rfl, rfl, rfl, rfl⟩)
  | writeBuf4 a w =>
    simp only [exec, execWriteBuf4]
    split
    · exact .inl ⟨_, rfl⟩
    · exact .inr (.inl ⟨_, _, rfl, rfl, rfl, rfl⟩)
  | setBufLen l =>
    simp only [exec, execSetBufLen]
    split
    · exact .inl ⟨_, rfl⟩
    · exact .inr (.inl ⟨_, _, rfl, rfl, rfl, rfl⟩)
  | readReg idx =>
    simp only [exec, execReadReg]
    split
    · exact .inr (.inl ⟨_, _, rfl, rfl, rfl, rfl⟩)
    · exact .inl ⟨_, rfl⟩
  | readBuf a =>
    simp only [exec, execReadBuf]
    split
    · exact .inl ⟨_, rfl⟩
    · exact .inr (.inl ⟨_, _, rfl, rfl, rfl, rfl⟩)
  | clearErr => exact .inr (.inl ⟨_, _, rfl, rfl, rfl, rfl⟩)

/-- What a step can be: idle, a hardware reset, or the transaction of the first command offered. -/
theorem step_cases (s : State) :
    (s.inputs = [] ∧ step s = .next s) ∨
    (∃ f rest, s.inputs = .hardwareReset f :: rest ∧ step s = .next (State.resetWith s.cfg rest s.responses)) ∨
    (∃ c rest, s.inputs = .command c :: rest ∧ step s = perform c (s.accept rest)) := by
  unfold step
  match h : s.inputs with
  | [] => exact .inl ⟨rfl, rfl⟩
  | .hardwareReset f :: rest => exact .inr (.inl ⟨f, rest, rfl, rfl⟩)
  | .command c :: rest => exact .inr (.inr ⟨c, rest, rfl, rfl⟩)

/-- A transaction is a rejection with ILLEGAL, or the decoded command's meaning. -/
theorem perform_cases (c : Command) (s : State) :
    (∃ why, decode c = .error why ∧ perform c s = reject .illegal s) ∨
    (∃ i, decode c = .ok i ∧ perform c s = exec i s) := by
  unfold perform
  cases h : decode c with
  | error why => exact .inl ⟨why, rfl, rfl⟩
  | ok i => exact .inr ⟨i, rfl, rfl⟩

@[simp] theorem run_zero (s : State) : run 0 s = .next s := rfl

/-- A run is its first step and the run from there, and stops where a step stops. -/
theorem run_eq (k : Nat) (s : State) :
    run (k + 1) s =
      match step s with
      | .next t => run k t
      | .fault r => .fault r
      | .refused r => .refused r := rfl

/-- A run goes on from the state its first step gives. -/
theorem run_succ (k : Nat) (h : step s = .next t) : run (k + 1) s = run k t := by
  rw [run_eq, h]

/-- The first step of a run that does not stop does not stop. -/
theorem step_of_run {k : Nat} (h : run (k + 1) s = .next t) : ∃ u, step s = .next u ∧ run k u = .next t := by
  rw [run_eq] at h
  split at h
  · exact ⟨_, ‹_›, h⟩
  · cases h
  · cases h

/-- Two runs after each other are one run. -/
theorem run_add (j k : Nat) (h : run j s = .next t) : run (j + k) s = run k t := by
  induction j generalizing s with
  | zero => cases h; simp
  | succ j ih =>
    obtain ⟨u, hs, hu⟩ := step_of_run h
    rw [Nat.succ_add, run_succ _ hs, ih hu]

end Sys2Proof.Machine
end

