-- ==== Sys2Proof/Laws/Exec.lean ====
section
/-! SUPPORT. Every command's meaning in one form: the error it is rejected with, if any, else its effect on the state
and its DATA. Later proofs cite `exec_eq` and the small lemmas here, and unfold no meaning. -/

namespace Sys2Proof.Machine

/-- The error a command is rejected with in a state, if any (R221, R224). -/
def rejection (s : State) : Instr → Option ErrorKind
  | .buildTable => if s.phase = .active ∧ s.poly ≠ s.tblPoly then some .tableInUse else none
  | .updateImm _ _ => if s.phase = .final then some .closed else none
  | .updateBuf off len =>
    if s.phase = .final then some .closed
    else if off.toNat + len.toNat > s.bufLen.toNat then some .range else none
  | .writeBuf a _ => if a.toNat ≥ s.bufSize then some .range else none
  | .writeBuf4 a _ => if a.toNat + 4 > s.bufSize then some .range else none
  | .setBufLen l => if l.toNat > s.bufSize then some .range else none
  | .readBuf a => if a.toNat ≥ s.bufSize then some .range else none
  | .readReg idx => if s.readIndex idx = none then some .badReg else none
  | .nop | .setPoly _ | .setSeed _ | .reset | .finalize | .clearErr => none

/-- The read of a byte at or above BUF_SIZE, in a state with BUF_LEN > BUF_SIZE. -/
def reachesHole (s : State) : Instr → Bool
  | .updateBuf off len => decide (s.bufSize < off.toNat + len.toNat)
  | .nop | .setPoly _ | .buildTable | .setSeed _ | .reset | .updateImm _ _ | .finalize | .writeBuf _ _
  | .writeBuf4 _ _ | .setBufLen _ | .readReg _ | .readBuf _ | .clearErr => false

/-- The effect of a command that is not rejected, the response apart. -/
def effect (s : State) : Instr → State
  | .nop | .readReg _ | .readBuf _ => s
  | .setPoly p => { s with poly := p }
  | .buildTable => { s with table := tableOf s.poly, tblPoly := s.poly }
  | .setSeed v => { s with seed := v }
  | .reset => { s with crc := s.seed, phase := .opened }
  | .updateImm nm1 v => { s with crc := foldAll s.table s.crc (bytesOf (byteCount nm1) v), phase := .active }
  | .updateBuf off len =>
    { s with
      crc := foldAll s.table s.crc (s.buf.readBytes off.toNat len.toNat)
      phase := if len.toNat > 0 then .active else s.phase }
  | .finalize => { s with result := ~~~s.crc, phase := .final }
  | .writeBuf a b => { s with buf := s.buf.writeBytes a.toNat (bytesOf 1 (b.setWidth 32)) }
  | .writeBuf4 a w => { s with buf := s.buf.writeBytes a.toNat (bytesOf 4 w) }
  | .setBufLen l => { s with bufLen := l.setWidth 16 }
  | .clearErr => { s with err := false, errCode := 0#4 }

/-- The DATA of a command that is not rejected (R92). -/
def answer (s : State) : Instr → Word
  | .readReg idx => (s.readIndex idx).getD 0#32
  | .readBuf a => (s.buf.readByte a.toNat).setWidth 32
  | .nop | .setPoly _ | .buildTable | .setSeed _ | .reset | .updateImm _ _ | .updateBuf _ _ | .finalize
  | .writeBuf _ _ | .writeBuf4 _ _ | .setBufLen _ | .clearErr => 0#32

/-- A meaning is its rejection, or its effect and its answer. -/
theorem exec_eq (i : Instr) (s : State) :
    exec i s =
      match rejection s i with
      | some e => reject e s
      | none => if reachesHole s i then .fault .bufferHole else complete (answer s i) (effect s i) := by
  cases i with
  | buildTable => simp only [exec, execBuildTable, rejection]; split <;> rfl
  | updateImm nm1 v => simp only [exec, execUpdateImm, rejection]; split <;> rfl
  | updateBuf off len =>
    simp only [exec, execUpdateBuf, rejection]
    split
    · rfl
    · split
      · rfl
      · by_cases h : off.toNat + len.toNat ≤ s.bufSize
        · have : ¬ s.bufSize < off.toNat + len.toNat := by omega
          simp only [memRead_of_le h, reachesHole, this, decide_false]
          rfl
        · have : s.bufSize < off.toNat + len.toNat := by omega
          simp only [memRead_of_gt this, reachesHole, this, decide_true, if_true]
  | writeBuf a b => simp only [exec, execWriteBuf, rejection]; split <;> rfl
  | writeBuf4 a w => simp only [exec, execWriteBuf4, rejection]; split <;> rfl
  | setBufLen l => simp only [exec, execSetBufLen, rejection]; split <;> rfl
  | readBuf a => simp only [exec, execReadBuf, rejection]; split <;> rfl
  | readReg idx =>
    simp only [exec, execReadReg, rejection]
    cases h : s.readIndex idx with
    | none => rfl
    | some v => simp [reachesHole, answer, effect, h]
  | nop => rfl
  | setPoly p => rfl
  | setSeed v => rfl
  | reset => rfl
  | finalize => rfl
  | clearErr => rfl

/-- A rejected command, in the words of the statements (R222, R223). -/
theorem reject_eq_rejectedWith (e : ErrorKind) (s : State) : reject e s = .next (rejectedWith (errorCode e) s) := by
  simp only [reject_eq, rejectedWith, State.recordError, State.respond]
  cases s.err <;> rfl

/-- A completed command, in the words of the statements (R10). -/
theorem complete_eq_answeredOk (d : Word) (s : State) : complete d s = .next (answeredOk d s) := rfl

theorem errorCode_ne_zero (e : ErrorKind) : errorCode e ≠ 0#4 := by cases e <;> decide

theorem errorCode_le (e : ErrorKind) : (errorCode e).toNat ≤ 5 := by cases e <;> decide

/-- With BUF_LEN <= BUF_SIZE, a command that is not rejected reaches no hole (R33). -/
theorem reachesHole_of_bufLen {s : State} {i : Instr} (hb : s.bufLen.toNat ≤ s.bufSize) (hr : rejection s i = none) :
    reachesHole s i = false := by
  cases i with
  | updateBuf off len =>
    simp only [rejection] at hr
    split at hr
    · cases hr
    · split at hr
      · cases hr
      · simp only [reachesHole, decide_eq_false_iff_not]
        omega
  | _ => rfl

/-- What a command's meaning answers, in a state with BUF_LEN <= BUF_SIZE. -/
theorem exec_next_cases (i : Instr) {s : State} (hb : s.bufLen.toNat ≤ s.bufSize) :
    (∃ e, rejection s i = some e ∧ exec i s = .next (rejectedWith (errorCode e) s)) ∨
    (rejection s i = none ∧ exec i s = .next (answeredOk (answer s i) (effect s i))) := by
  rw [exec_eq]
  cases h : rejection s i with
  | some e => exact .inl ⟨e, rfl, reject_eq_rejectedWith e s⟩
  | none => exact .inr ⟨rfl, by simp only [reachesHole_of_bufLen hb h]; rfl⟩

/-- What a next state of a command's meaning is, in any state. -/
theorem exec_next {i : Instr} {s t : State} (h : exec i s = .next t) :
    (∃ e, rejection s i = some e ∧ t = rejectedWith (errorCode e) s) ∨
    (rejection s i = none ∧ reachesHole s i = false ∧ t = answeredOk (answer s i) (effect s i)) := by
  rw [exec_eq] at h
  cases hr : rejection s i with
  | some e =>
    rw [hr] at h
    simp only [reject_eq_rejectedWith] at h
    cases h
    exact .inl ⟨e, rfl, rfl⟩
  | none =>
    rw [hr] at h
    simp only at h
    cases hh : reachesHole s i with
    | true => rw [hh] at h; cases h
    | false =>
      rw [hh] at h
      cases h
      exact .inr ⟨rfl, rfl, rfl⟩

/-- What a next state of a transaction is: the rejection of an illegal word, or the decoded command's. -/
theorem perform_next {c : Command} {s t : State} (h : perform c s = .next t) :
    (∃ why, decode c = .error why ∧ t = rejectedWith 1#4 s) ∨ (∃ i, decode c = .ok i ∧ exec i s = .next t) := by
  rcases perform_cases c s with ⟨why, hd, hp⟩ | ⟨i, hd, hp⟩
  · rw [hp, reject_eq_rejectedWith] at h
    cases h
    exact .inl ⟨why, hd, rfl⟩
  · exact .inr ⟨i, hd, hp ▸ h⟩

/-- A transaction whose word does not decode is rejected with ILLEGAL. -/
theorem perform_illegal {c : Command} {why : IllegalWord} (h : decode c = .error why) (s : State) :
    perform c s = .next (rejectedWith 1#4 s) := by
  unfold perform
  rw [h]
  exact reject_eq_rejectedWith .illegal s

/-- An opcode's legal words are those that decode. -/
theorem onlyLegalWords_of {opc : Byte} {legal : Word → Prop}
    (h : ∀ (c : Command) (i : Instr), decode c = .ok i → cmdOpc c.cmd = opc → legal c.cmd) :
    onlyLegalWords opc legal := by
  intro c s hc hn
  cases hd : decode c with
  | error why => exact perform_illegal hd s
  | ok i => exact absurd (h c i hd hc) hn

section Port

variable (s : State) (ins : List PortInput)

/-- Nothing a command does depends on what is offered after it. -/
@[simp] theorem rejection_inputs (i : Instr) : rejection { s with inputs := ins } i = rejection s i := by
  cases i <;> rfl

@[simp] theorem reachesHole_inputs (i : Instr) : reachesHole { s with inputs := ins } i = reachesHole s i := by
  cases i <;> rfl

@[simp] theorem answer_inputs (i : Instr) : answer { s with inputs := ins } i = answer s i := by
  cases i <;> rfl

@[simp] theorem effect_inputs (i : Instr) :
    effect { s with inputs := ins } i = { effect s i with inputs := ins } := by
  cases i <;> rfl

end Port

section Effect

variable (s : State) (i : Instr)

@[simp] theorem effect_keeps_cfg : (effect s i).cfg = s.cfg := by cases i <;> rfl
@[simp] theorem effect_keeps_inputs : (effect s i).inputs = s.inputs := by cases i <;> rfl
@[simp] theorem effect_keeps_responses : (effect s i).responses = s.responses := by cases i <;> rfl

end Effect

section Words

variable (s : State)

@[simp] theorem answeredOk_responses (d : Word) : (answeredOk d s).responses = s.responses ++ [⟨0#4, d⟩] := rfl
@[simp] theorem answeredOk_inputs (d : Word) : (answeredOk d s).inputs = s.inputs := rfl
@[simp] theorem rejectedWith_responses (k : Nibble) :
    (rejectedWith k s).responses = s.responses ++ [⟨k, 0#32⟩] := rfl
@[simp] theorem rejectedWith_inputs (k : Nibble) : (rejectedWith k s).inputs = s.inputs := rfl

end Words

/-- Everything a step that answers a next state can have done: nothing, a hardware reset, or the transaction of the
first command offered, which is a rejection of an illegal word, a rejection of the decoded command, or its effect. -/
theorem step_next {s t : State} (h : step s = .next t) :
    (s.inputs = [] ∧ t = s) ∨
    (∃ f rest, s.inputs = .hardwareReset f :: rest ∧ t = State.resetWith s.cfg rest s.responses) ∨
    (∃ c rest, s.inputs = .command c :: rest ∧
      ((∃ why, decode c = .error why ∧ t = rejectedWith 1#4 { s with inputs := rest }) ∨
       (∃ i e, decode c = .ok i ∧ rejection s i = some e ∧
          t = rejectedWith (errorCode e) { s with inputs := rest }) ∨
       (∃ i, decode c = .ok i ∧ rejection s i = none ∧ reachesHole s i = false ∧
          t = { effect s i with inputs := rest, responses := s.responses ++ [⟨0#4, answer s i⟩] }))) := by
  rcases step_cases s with ⟨h1, h2⟩ | ⟨f, rest, h1, h2⟩ | ⟨c, rest, h1, h2⟩
  · rw [h2] at h
    cases h
    exact .inl ⟨h1, rfl⟩
  · rw [h2] at h
    cases h
    exact .inr (.inl ⟨f, rest, h1, rfl⟩)
  · refine .inr (.inr ⟨c, rest, h1, ?_⟩)
    rw [h2] at h
    rcases perform_next h with ⟨why, hd, ht⟩ | ⟨i, hd, he⟩
    · exact .inl ⟨why, hd, ht⟩
    · rcases exec_next he with ⟨e, hr, ht⟩ | ⟨hr, hh, ht⟩
      · exact .inr (.inl ⟨i, e, hd, by simpa [State.accept] using hr, ht⟩)
      · refine .inr (.inr ⟨i, hd, by simpa [State.accept] using hr, by simpa [State.accept] using hh, ?_⟩)
        rw [ht]
        simp [State.accept, answeredOk]

end Sys2Proof.Machine
end

