-- ==== Sys2Proof/Laws/PerInstr.lean ====
section
/-! SUPPORT. Facts about every command, one lemma per constructor: the fields of the words the encoder writes are those
of the opcode map (R82, R85). -/

namespace Sys2Proof.Laws.EncodedFields

open Machine

/-- The opcode of a command, as the opcode map gives it (R85). -/
def opcode : Instr → Byte
  | .nop => 0x00#8
  | .setPoly _ => 0x01#8
  | .buildTable => 0x02#8
  | .setSeed _ => 0x03#8
  | .reset => 0x04#8
  | .updateImm _ _ => 0x05#8
  | .updateBuf _ _ => 0x06#8
  | .finalize => 0x07#8
  | .writeBuf _ _ => 0x08#8
  | .writeBuf4 _ _ => 0x09#8
  | .setBufLen _ => 0x0A#8
  | .readReg _ => 0x0B#8
  | .readBuf _ => 0x0C#8
  | .clearErr => 0x0D#8

/-- RSV is zero and OPC is the command's own. -/
def Statement (i : Instr) : Prop := cmdRsv (encode i).cmd = 0#8 ∧ cmdOpc (encode i).cmd = opcode i

theorem nop : Statement .nop := ⟨cmdRsv_cmdWord .., cmdOpc_cmdWord ..⟩
theorem setPoly (p : Word) : Statement (.setPoly p) := ⟨cmdRsv_cmdWord .., cmdOpc_cmdWord ..⟩
theorem buildTable : Statement .buildTable := ⟨cmdRsv_cmdWord .., cmdOpc_cmdWord ..⟩
theorem setSeed (s : Word) : Statement (.setSeed s) := ⟨cmdRsv_cmdWord .., cmdOpc_cmdWord ..⟩
theorem reset : Statement .reset := ⟨cmdRsv_cmdWord .., cmdOpc_cmdWord ..⟩
theorem updateImm (nm1 : BitVec 2) (v : Word) : Statement (.updateImm nm1 v) :=
  ⟨cmdRsv_cmdWord .., cmdOpc_cmdWord ..⟩
theorem updateBuf (off : Half) (len : Word) : Statement (.updateBuf off len) :=
  ⟨cmdRsv_cmdWord .., cmdOpc_cmdWord ..⟩
theorem finalize : Statement .finalize := ⟨cmdRsv_cmdWord .., cmdOpc_cmdWord ..⟩
theorem writeBuf (a : Half) (b : Byte) : Statement (.writeBuf a b) := ⟨cmdRsv_cmdWord .., cmdOpc_cmdWord ..⟩
theorem writeBuf4 (a : Half) (w : Word) : Statement (.writeBuf4 a w) := ⟨cmdRsv_cmdWord .., cmdOpc_cmdWord ..⟩
theorem setBufLen (l : Word) : Statement (.setBufLen l) := ⟨cmdRsv_cmdWord .., cmdOpc_cmdWord ..⟩
theorem readReg (idx : Half) : Statement (.readReg idx) := ⟨cmdRsv_cmdWord .., cmdOpc_cmdWord ..⟩
theorem readBuf (a : Half) : Statement (.readBuf a) := ⟨cmdRsv_cmdWord .., cmdOpc_cmdWord ..⟩
theorem clearErr : Statement .clearErr := ⟨cmdRsv_cmdWord .., cmdOpc_cmdWord ..⟩

end Sys2Proof.Laws.EncodedFields
end

