-- ==== Sys2Proof/Tests/Slice0.lean ====
section
/-! SUPPORT. Tests and witnesses. Every expected value is from the spec, 95_test_vectors.md (a vector's number stands in
the comment) or a worked encoding of R91; none was taken from the model. A test is one step, or one operation. The
witnesses show states and operands that meet the hypotheses of a statement, at the boundary of each clause. -/

namespace Sys2Proof.Tests

set_option Elab.async false

open Machine

/-! ## Helpers -/

/-- The state a result goes on with; reset stands for a stop, which no test here meets. -/
def after (r : Result) : State :=
  match r with
  | .next t => t
  | .fault _ => State.reset
  | .refused _ => State.reset

/-- Whether a result goes on. -/
def goesOn (r : Result) : Bool :=
  match r with
  | .next _ => true
  | .fault _ => false
  | .refused _ => false

/-- The state after one command, given by its two words. -/
def send (cmd arg : Word) (s : State) : State := after (perform ⟨cmd, arg⟩ s)

/-- STATUS and DATA of the response to one command. -/
def respOf (cmd arg : Word) (s : State) : Option (Nat × Nat) :=
  ((send cmd arg s).responses.getLast?).map fun r => (r.status.toNat, r.data.toNat)

/-- Reset with a session phase. -/
def inPhase (p : Phase) : State := { State.reset with phase := p }

/-- The bytes of "123456789". -/
def checkBytes : List Byte := [0x31#8, 0x32#8, 0x33#8, 0x34#8, 0x35#8, 0x36#8, 0x37#8, 0x38#8, 0x39#8]

/-- Reset with "123456789" in the buffer and BUF_LEN = 9, in a session phase. -/
def loaded (p : Phase) : State :=
  { State.reset with buf := State.reset.buf.writeBytes 0 checkBytes, bufLen := 9#16, phase := p }

/-- Reset with an ERR record of a code. -/
def recorded (code : Nibble) (p : Phase) : State := { State.reset with err := true, errCode := code, phase := p }

/-- An ACTIVE session with a polynomial staged and not built (V2.5.9). -/
def staged : State := { State.reset with phase := .active, poly := 0x82F63B78#32 }

theorem inPhase_inv (p : Phase) : (inPhase p).Inv := by
  cases p <;> exact ⟨by decide, wf_nil, by simp [inPhase, State.reset, State.resetWith], by decide, rfl, by decide,
    by decide, by decide⟩

theorem loaded_inv (p : Phase) : (loaded p).Inv := by
  cases p <;> exact ⟨by decide, by decide, by decide, by decide, rfl, by decide, by decide, by decide⟩

theorem staged_inv : staged.Inv :=
  ⟨by decide, wf_nil, by simp [staged, State.reset, State.resetWith], by decide, rfl, by decide, by decide, nofun⟩

/-- The state after reset meets the invariant's hypotheses: the witness of every statement over `s.Inv` alone. -/
theorem reset_inv : State.reset.Inv := inPhase_inv .opened

/-! ## Well-formedness: the one check, and what it refuses -/

theorem test_wf_update_imm_too_wide_for_one_byte : Instr.wf (.updateImm 0#2 0x100#32) = false := by decide
theorem test_wf_update_imm_too_wide_for_three_bytes : Instr.wf (.updateImm 2#2 0x01000000#32) = false := by decide
theorem test_wf_update_imm_at_the_bound : Instr.wf (.updateImm 0#2 0xFF#32) = true := by decide
theorem test_wf_update_imm_four_bytes : Instr.wf (.updateImm 3#2 0xFFFFFFFF#32) = true := by decide

/-! ## Decoding: words written from R81, R82, R85 and R91 -/

theorem test_decode_nop : decode ⟨0x00000000#32, 0xFFFFFFFF#32⟩ = .ok .nop := by decide
theorem test_decode_set_poly : decode ⟨0x01000000#32, 0x82F63B78#32⟩ = .ok (.setPoly 0x82F63B78#32) := by decide
theorem test_decode_build_table : decode ⟨0x02000000#32, 0#32⟩ = .ok .buildTable := by decide
theorem test_decode_set_seed : decode ⟨0x03000000#32, 0xFFFFFFFF#32⟩ = .ok (.setSeed 0xFFFFFFFF#32) := by decide
theorem test_decode_reset : decode ⟨0x04000000#32, 0#32⟩ = .ok .reset := by decide
theorem test_decode_update_imm : decode ⟨0x05000002#32, 0x00636261#32⟩ = .ok (.updateImm 2#2 0x00636261#32) := by
  decide
theorem test_decode_update_imm_ignores_high_bytes :
    decode ⟨0x05000000#32, 0xFFFFFF31#32⟩ = .ok (.updateImm 0#2 0x31#32) := by decide
theorem test_decode_update_buf : decode ⟨0x0600FFFF#32, 0x00000001#32⟩ = .ok (.updateBuf 0xFFFF#16 1#32) := by decide
theorem test_decode_finalize : decode ⟨0x07000000#32, 0#32⟩ = .ok .finalize := by decide
theorem test_decode_write_buf : decode ⟨0x080000FF#32, 0x00001234#32⟩ = .ok (.writeBuf 0x00FF#16 0x34#8) := by decide
theorem test_decode_write_buf4 : decode ⟨0x090000FC#32, 0xDDCCBBAA#32⟩ = .ok (.writeBuf4 252#16 0xDDCCBBAA#32) := by
  decide
theorem test_decode_set_buf_len : decode ⟨0x0A000000#32, 0x00000101#32⟩ = .ok (.setBufLen 257#32) := by decide
theorem test_decode_read_reg : decode ⟨0x0B000180#32, 0#32⟩ = .ok (.readReg 0x0180#16) := by decide
theorem test_decode_read_buf : decode ⟨0x0C000100#32, 0#32⟩ = .ok (.readBuf 256#16) := by decide
theorem test_decode_clear_err : decode ⟨0x0D000000#32, 0#32⟩ = .ok .clearErr := by decide

/-- R87, with the words of V2.5.1 to V2.5.5. -/
theorem test_decode_illegal :
    decode ⟨0x00000001#32, 0#32⟩ = .error .immediateNotZero ∧
    decode ⟨0x01010000#32, 5#32⟩ = .error .reservedFieldNotZero ∧
    decode ⟨0x05000004#32, 0#32⟩ = .error .countFieldNotZero ∧
    decode ⟨0x0E000000#32, 0#32⟩ = .error .reservedOpcode ∧
    decode ⟨0xFF000000#32, 0#32⟩ = .error .reservedOpcode := by decide

/-- R91's worked encodings, through the encoder. -/
theorem test_encode_worked :
    encode (.updateImm 2#2 0x00333231#32) = ⟨0x05000002#32, 0x00333231#32⟩ ∧
    encode (.writeBuf4 4#16 0x38373635#32) = ⟨0x09000004#32, 0x38373635#32⟩ ∧
    encode (.writeBuf 8#16 0x39#8) = ⟨0x08000008#32, 0x00000039#32⟩ ∧
    encode (.readReg 0x0180#16) = ⟨0x0B000180#32, 0x00000000#32⟩ := by decide

/-- The table's numbering: CMD in bits 31..0, ARG above it (log 12). -/
theorem test_decodeTableWord :
    decodeTableWord 32 0x05000003 = some (.updateImm 3#2 0#32) ∧
    decodeTableWord 64 0x82F63B7801000000 = some (.setPoly 0x82F63B78#32) ∧
    decodeTableWord 32 0x0E000000 = none := by decide

theorem test_withFetchWord_is_performed_first :
    (after (step (State.reset.withFetchWord 64 0x82F63B7801000000))).poly = 0x82F63B78#32 ∧
    (after (step (State.reset.withFetchWord 64 0x82F63B7801000000))).responses = [okResponse] ∧
    (after (step (State.reset.withFetchWord 64 0x82F63B7801000000))).inputs = [] := by decide +kernel

/-! ## Table builder -/

/-- V2.1.1. -/
theorem test_entry_default : [0, 1, 2, 3, 4, 8, 16, 32, 64, 128, 255].map (fun i => entry defaultPoly (BitVec.ofNat 8 i))
    = [0x00000000#32, 0x77073096#32, 0xEE0E612C#32, 0x990951BA#32, 0x076DC419#32, 0x0EDB8832#32, 0x1DB71064#32,
       0x3B6E20C8#32, 0x76DC4190#32, 0xEDB88320#32, 0x2D02EF8D#32] := by decide +kernel

/-- V2.1.2, V2.1.3, V2.1.5. -/
theorem test_entry_other_polynomials :
    entry 0x82F63B78#32 1#8 = 0xF26B8303#32 ∧ entry 0x82F63B78#32 255#8 = 0xAD7D5351#32 ∧
    entry 0x04C11DB7#32 2#8 = 0x05C45641#32 ∧ entry 0x80000000#32 255#8 = 0xFF000000#32 ∧
    entry 1#32 255#8 = 0#32 := by decide +kernel

/-- V2.1.10. -/
theorem test_set_poly_stages_only :
    (send 0x01000000#32 0x82F63B78#32 State.reset).poly = 0x82F63B78#32 ∧
    (send 0x01000000#32 0x82F63B78#32 State.reset).tblPoly = 0xEDB88320#32 ∧
    tableAt (send 0x01000000#32 0x82F63B78#32 State.reset).table 1#8 = 0x77073096#32 := by decide +kernel

/-- V2.1.7, V2.5.10. -/
theorem test_build_table_replaces :
    (send 0x02000000#32 0#32 { staged with phase := .final }).tblPoly = 0x82F63B78#32 ∧
    tableAt (send 0x02000000#32 0#32 { staged with phase := .final }).table 1#8 = 0xF26B8303#32 := by decide +kernel

/-- V2.5.8, V2.5.9. -/
theorem test_build_table_in_active :
    respOf 0x02000000#32 0#32 (inPhase .active) = some (0, 0) ∧ respOf 0x02000000#32 0#32 staged = some (4, 0) ∧
    (send 0x02000000#32 0#32 staged).statusView = 0x00000045#32 := by decide +kernel

/-! ## Streaming engine -/

/-- V2.2.1, the register after each byte. -/
theorem test_fold_trace :
    (List.range 10).map (fun k => foldAll (tableOf defaultPoly) defaultSeed (checkBytes.take k)) =
      [0xFFFFFFFF#32, 0x7C231048#32, 0xB0ACBB32#32, 0x77B79C2D#32, 0x641C1F5C#32, 0x340AC5E3#32, 0xF68D2C9E#32,
       0xAFFC9660#32, 0x651F2550#32, 0x340BC6D9#32] := by decide +kernel

/-- V2.2.3, V2.2.5. -/
theorem test_fold_values :
    fold (tableOf defaultPoly) 0x12345678#32 0x78#8 = 0x00123456#32 ∧
    fold (tableOf defaultPoly) 0#32 0x80#8 = 0xEDB88320#32 ∧
    foldAll (tableOf 0x82F63B78#32) defaultSeed checkBytes = 0x1CF96D7C#32 ∧
    foldAll (tableOf 0x04C11DB7#32) defaultSeed checkBytes = 0x03B0D416#32 ∧
    foldAll (tableOf defaultPoly) 0#32 checkBytes = 0x2DFD2D88#32 := by decide +kernel

/-- V2.2.7: `set_seed` leaves the register. -/
theorem test_set_seed_leaves_the_register :
    (send 0x03000000#32 0#32 State.reset).seed = 0#32 ∧ (send 0x03000000#32 0#32 State.reset).crc = 0xFFFFFFFF#32 := by
  decide +kernel

/-- V2.2.7: `reset` loads it. -/
theorem test_reset_loads_the_seed :
    (send 0x04000000#32 0#32 { inPhase .final with seed := 0#32 }).crc = 0#32 ∧
    (send 0x04000000#32 0#32 { inPhase .final with seed := 0#32 }).phase = .opened := by decide +kernel

/-- V4.1, V4.4: the first byte is the least significant. -/
theorem test_update_imm_byte_order :
    (send 0x05000003#32 0x34333231#32 State.reset).crc = 0x641C1F5C#32 ∧
    (send 0x05000001#32 0x00006261#32 State.reset).crc = 0x617CB792#32 ∧
    (send 0x05000001#32 0x00006261#32 State.reset).phase = .active := by decide +kernel

/-- V2.5.6 and P3 line 7: CLOSED. -/
theorem test_update_imm_closed :
    respOf 0x05000000#32 0x63#32 (inPhase .final) = some (3, 0) ∧
    (send 0x05000000#32 0x63#32 (inPhase .final)).crc = 0xFFFFFFFF#32 := by decide +kernel

/-- P1 line 6; V2.2.8. -/
theorem test_update_buf_folds :
    (send 0x06000000#32 9#32 (loaded .opened)).crc = 0x340BC6D9#32 ∧
    (send 0x06000000#32 9#32 (loaded .opened)).phase = .active ∧
    (send 0x06000009#32 0#32 (loaded .opened)).phase = .opened := by decide +kernel

/-- V2.2.8, V2.5.6. -/
theorem test_update_buf_bounds :
    respOf 0x0600000A#32 0#32 (loaded .opened) = some (2, 0) ∧
    respOf 0x06000005#32 5#32 (loaded .opened) = some (2, 0) ∧
    respOf 0x06000000#32 0xFFFFFFFF#32 (loaded .opened) = some (2, 0) ∧
    respOf 0x0600FFFF#32 1#32 (loaded .opened) = some (2, 0) ∧
    respOf 0x06000101#32 0#32 (loaded .final) = some (3, 0) := by decide +kernel

/-! ## Finalizer -/

/-- V2.3.1. -/
theorem test_finalize_latches :
    (send 0x07000000#32 0#32 { inPhase .active with crc := 0x340BC6D9#32 }).result = 0xCBF43926#32 ∧
    (send 0x07000000#32 0#32 { inPhase .active with crc := 0x340BC6D9#32 }).crc = 0x340BC6D9#32 ∧
    (send 0x07000000#32 0#32 { inPhase .active with crc := 0x340BC6D9#32 }).phase = .final := by decide +kernel

/-- V2.3.3. -/
theorem test_finalize_of_nothing :
    (send 0x07000000#32 0#32 State.reset).result = 0#32 ∧ (send 0x07000000#32 0#32 State.reset).phase = .final := by
  decide +kernel

/-! ## Buffer and control -/

/-- V2.4.1. -/
theorem test_nop : respOf 0x00000000#32 0#32 State.reset = some (0, 0) := by decide +kernel

/-- V2.4.2, V2.4.4. -/
theorem test_write_buf :
    (send 0x080000FF#32 0x1234#32 State.reset).buf.readByte 255 = 0x34#8 ∧
    respOf 0x08000100#32 0#32 State.reset = some (2, 0) := by decide +kernel

/-- V2.4.5. -/
theorem test_write_buf4 :
    (send 0x090000FC#32 0xDDCCBBAA#32 State.reset).buf.readBytes 252 4 = [0xAA#8, 0xBB#8, 0xCC#8, 0xDD#8] := by
  decide +kernel

/-- V2.4.6: nothing written. -/
theorem test_write_buf4_range :
    respOf 0x090000FD#32 0xDDCCBBAA#32 State.reset = some (2, 0) ∧
    (send 0x090000FD#32 0xDDCCBBAA#32 State.reset).buf = [] := by decide +kernel

/-- V2.4.8, V2.4.9. -/
theorem test_set_buf_len :
    (send 0x0A000000#32 256#32 State.reset).bufLen = 256#16 ∧ respOf 0x0A000000#32 257#32 State.reset = some (2, 0) ∧
    (send 0x0A000000#32 257#32 State.reset).bufLen = 0#16 := by decide +kernel

/-- V2.4.3, V2.4.7. -/
theorem test_read_buf :
    respOf 0x0C0000FF#32 0#32 { State.reset with buf := [(255, 0x34#8)] } = some (0, 0x34) ∧
    respOf 0x0C000100#32 0#32 State.reset = some (2, 0) := by decide +kernel

/-- V2.3.4, V2.3.5, V2.4.10, V2.4.11, P2 line 9. -/
theorem test_read_reg_values :
    respOf 0x0B000003#32 0#32 { State.reset with result := 0xCBF43926#32 } = some (0, 0xCBF43926) ∧
    respOf 0x0B000004#32 0#32 { State.reset with result := 0xCBF43926#32 } = some (0, 0xCB) ∧
    respOf 0x0B000007#32 0#32 { State.reset with result := 0xCBF43926#32 } = some (0, 0x26) ∧
    respOf 0x0B00000B#32 0#32 State.reset = some (0, 0x100) ∧
    respOf 0x0B0001FF#32 0#32 State.reset = some (0, 0x2D02EF8D) ∧
    respOf 0x0B000100#32 0#32 State.reset = some (0, 0) := by decide +kernel

/-- V2.4.12 to V2.4.14, P3 lines 9 and 17. -/
theorem test_read_reg_status_and_unmapped :
    respOf 0x0B00000C#32 0#32 State.reset = some (5, 0) ∧ respOf 0x0B000200#32 0#32 State.reset = some (5, 0) ∧
    respOf 0x0B0000FF#32 0#32 State.reset = some (5, 0) ∧ respOf 0x0B00FFFF#32 0#32 State.reset = some (5, 0) ∧
    respOf 0x0B000008#32 0#32 State.reset = some (0, 0) ∧
    respOf 0x0B000008#32 0#32 (recorded 4#4 .final) = some (0, 0x46) ∧
    respOf 0x0B000008#32 0#32 (recorded 1#4 .final) = some (0, 0x16) := by decide +kernel

/-- V2.4.15. -/
theorem test_clear_err : (send 0x0D000000#32 0#32 (recorded 4#4 .final)).statusView = 0x00000002#32 := by decide +kernel

/-! ## Errors, in the STATUS register -/

/-- V2.5.1 to V2.5.5. -/
theorem test_illegal_is_recorded :
    [(0x00000001#32, 0#32), (0x01010000#32, 5#32), (0x05000004#32, 0#32), (0x0E000000#32, 0#32), (0xFF000000#32, 0#32)].map
      (fun c => ((send c.1 c.2 State.reset).statusView, respOf c.1 c.2 State.reset)) =
    List.replicate 5 (0x00000014#32, some (1, 0)) := by decide +kernel

/-- V2.5.6, V2.5.7, V2.5.11: the phase before the operand, the encoding before both, and the first code kept. -/
theorem test_priority_and_first_code :
    (send 0x06000101#32 0#32 { inPhase .final with bufLen := 256#16 }).statusView = 0x00000036#32 ∧
    (send 0x05000004#32 0#32 (inPhase .final)).statusView = 0x00000016#32 ∧
    (send 0x08000100#32 0#32 (recorded 1#4 .opened)).statusView = 0x00000014#32 ∧
    respOf 0x08000100#32 0#32 (recorded 1#4 .opened) = some (2, 0) := by decide +kernel

/-! ## The default table, whole (95_test_vectors.md section 3) -/

/-- Entries 0 to 63. -/
def defaultRows0 : List Nat :=
  [0x00000000, 0x77073096, 0xEE0E612C, 0x990951BA, 0x076DC419, 0x706AF48F, 0xE963A535, 0x9E6495A3] ++
  [0x0EDB8832, 0x79DCB8A4, 0xE0D5E91E, 0x97D2D988, 0x09B64C2B, 0x7EB17CBD, 0xE7B82D07, 0x90BF1D91] ++
  [0x1DB71064, 0x6AB020F2, 0xF3B97148, 0x84BE41DE, 0x1ADAD47D, 0x6DDDE4EB, 0xF4D4B551, 0x83D385C7] ++
  [0x136C9856, 0x646BA8C0, 0xFD62F97A, 0x8A65C9EC, 0x14015C4F, 0x63066CD9, 0xFA0F3D63, 0x8D080DF5] ++
  [0x3B6E20C8, 0x4C69105E, 0xD56041E4, 0xA2677172, 0x3C03E4D1, 0x4B04D447, 0xD20D85FD, 0xA50AB56B] ++
  [0x35B5A8FA, 0x42B2986C, 0xDBBBC9D6, 0xACBCF940, 0x32D86CE3, 0x45DF5C75, 0xDCD60DCF, 0xABD13D59] ++
  [0x26D930AC, 0x51DE003A, 0xC8D75180, 0xBFD06116, 0x21B4F4B5, 0x56B3C423, 0xCFBA9599, 0xB8BDA50F] ++
  [0x2802B89E, 0x5F058808, 0xC60CD9B2, 0xB10BE924, 0x2F6F7C87, 0x58684C11, 0xC1611DAB, 0xB6662D3D]

/-- Entries 64 to 127. -/
def defaultRows64 : List Nat :=
  [0x76DC4190, 0x01DB7106, 0x98D220BC, 0xEFD5102A, 0x71B18589, 0x06B6B51F, 0x9FBFE4A5, 0xE8B8D433] ++
  [0x7807C9A2, 0x0F00F934, 0x9609A88E, 0xE10E9818, 0x7F6A0DBB, 0x086D3D2D, 0x91646C97, 0xE6635C01] ++
  [0x6B6B51F4, 0x1C6C6162, 0x856530D8, 0xF262004E, 0x6C0695ED, 0x1B01A57B, 0x8208F4C1, 0xF50FC457] ++
  [0x65B0D9C6, 0x12B7E950, 0x8BBEB8EA, 0xFCB9887C, 0x62DD1DDF, 0x15DA2D49, 0x8CD37CF3, 0xFBD44C65] ++
  [0x4DB26158, 0x3AB551CE, 0xA3BC0074, 0xD4BB30E2, 0x4ADFA541, 0x3DD895D7, 0xA4D1C46D, 0xD3D6F4FB] ++
  [0x4369E96A, 0x346ED9FC, 0xAD678846, 0xDA60B8D0, 0x44042D73, 0x33031DE5, 0xAA0A4C5F, 0xDD0D7CC9] ++
  [0x5005713C, 0x270241AA, 0xBE0B1010, 0xC90C2086, 0x5768B525, 0x206F85B3, 0xB966D409, 0xCE61E49F] ++
  [0x5EDEF90E, 0x29D9C998, 0xB0D09822, 0xC7D7A8B4, 0x59B33D17, 0x2EB40D81, 0xB7BD5C3B, 0xC0BA6CAD]

/-- Entries 128 to 191. -/
def defaultRows128 : List Nat :=
  [0xEDB88320, 0x9ABFB3B6, 0x03B6E20C, 0x74B1D29A, 0xEAD54739, 0x9DD277AF, 0x04DB2615, 0x73DC1683] ++
  [0xE3630B12, 0x94643B84, 0x0D6D6A3E, 0x7A6A5AA8, 0xE40ECF0B, 0x9309FF9D, 0x0A00AE27, 0x7D079EB1] ++
  [0xF00F9344, 0x8708A3D2, 0x1E01F268, 0x6906C2FE, 0xF762575D, 0x806567CB, 0x196C3671, 0x6E6B06E7] ++
  [0xFED41B76, 0x89D32BE0, 0x10DA7A5A, 0x67DD4ACC, 0xF9B9DF6F, 0x8EBEEFF9, 0x17B7BE43, 0x60B08ED5] ++
  [0xD6D6A3E8, 0xA1D1937E, 0x38D8C2C4, 0x4FDFF252, 0xD1BB67F1, 0xA6BC5767, 0x3FB506DD, 0x48B2364B] ++
  [0xD80D2BDA, 0xAF0A1B4C, 0x36034AF6, 0x41047A60, 0xDF60EFC3, 0xA867DF55, 0x316E8EEF, 0x4669BE79] ++
  [0xCB61B38C, 0xBC66831A, 0x256FD2A0, 0x5268E236, 0xCC0C7795, 0xBB0B4703, 0x220216B9, 0x5505262F] ++
  [0xC5BA3BBE, 0xB2BD0B28, 0x2BB45A92, 0x5CB36A04, 0xC2D7FFA7, 0xB5D0CF31, 0x2CD99E8B, 0x5BDEAE1D]

/-- Entries 192 to 255. -/
def defaultRows192 : List Nat :=
  [0x9B64C2B0, 0xEC63F226, 0x756AA39C, 0x026D930A, 0x9C0906A9, 0xEB0E363F, 0x72076785, 0x05005713] ++
  [0x95BF4A82, 0xE2B87A14, 0x7BB12BAE, 0x0CB61B38, 0x92D28E9B, 0xE5D5BE0D, 0x7CDCEFB7, 0x0BDBDF21] ++
  [0x86D3D2D4, 0xF1D4E242, 0x68DDB3F8, 0x1FDA836E, 0x81BE16CD, 0xF6B9265B, 0x6FB077E1, 0x18B74777] ++
  [0x88085AE6, 0xFF0F6A70, 0x66063BCA, 0x11010B5C, 0x8F659EFF, 0xF862AE69, 0x616BFFD3, 0x166CCF45] ++
  [0xA00AE278, 0xD70DD2EE, 0x4E048354, 0x3903B3C2, 0xA7672661, 0xD06016F7, 0x4969474D, 0x3E6E77DB] ++
  [0xAED16A4A, 0xD9D65ADC, 0x40DF0B66, 0x37D83BF0, 0xA9BCAE53, 0xDEBB9EC5, 0x47B2CF7F, 0x30B5FFE9] ++
  [0xBDBDF21C, 0xCABAC28A, 0x53B39330, 0x24B4A3A6, 0xBAD03605, 0xCDD70693, 0x54DE5729, 0x23D967BF] ++
  [0xB3667A2E, 0xC4614AB8, 0x5D681B02, 0x2A6F2B94, 0xB40BBE37, 0xC30C8EA1, 0x5A05DF1B, 0x2D02EF8D]

theorem test_default_table_whole :
    State.reset.table.entries.map BitVec.toNat = defaultRows0 ++ defaultRows64 ++ defaultRows128 ++ defaultRows192 := by
  decide +kernel

/-! ## Facade, signed reading, assembler, port -/

/-- V2.6.1, V2.6.2: what the sequence of R200 loads. -/
theorem test_compute_sequence :
    (compute 0xEDB88320#32 0xFFFFFFFF#32 checkBytes).map encode =
      [⟨0x03000000#32, 0xFFFFFFFF#32⟩, ⟨0x04000000#32, 0#32⟩, ⟨0x01000000#32, 0xEDB88320#32⟩, ⟨0x02000000#32, 0#32⟩,
       ⟨0x09000000#32, 0x34333231#32⟩, ⟨0x09000004#32, 0x38373635#32⟩, ⟨0x08000008#32, 0x39#32⟩,
       ⟨0x0A000000#32, 9#32⟩, ⟨0x06000000#32, 9#32⟩, ⟨0x07000000#32, 0#32⟩, ⟨0x0B000003#32, 0#32⟩] := by decide +kernel

/-- Section 5: "héllo" and "123456789". -/
theorem test_signed_results :
    ~~~foldAll (tableOf defaultPoly) defaultSeed [0x68#8, 0xC3#8, 0xA9#8, 0x6C#8, 0x6C#8, 0x6F#8] = 0x9E3B8236#32 ∧
    s32 0x9E3B8236#32 = -1640267210 ∧ s32 0x0E048D3E#32 = 235179326 ∧ s32 0xCBF43926#32 = -873187034 := by
  decide +kernel

/-- R89, with the encodings of P2, P3 and V2.4.2. -/
theorem test_assembler_lines :
    assembleLine "update_imm 3, 0x636261" = some [⟨0x05000002#32, 0x00636261#32⟩] ∧
    assembleLine "read_reg TABLE+128 ; entry 128" = some [⟨0x0B000180#32, 0#32⟩] ∧
    assembleLine "read_reg TBL_POLY" = some [⟨0x0B000009#32, 0#32⟩] ∧
    assembleLine ".cmd 0x080000FF, 0x00001234" = some [⟨0x080000FF#32, 0x00001234#32⟩] ∧
    assembleLine "; nothing" = some [] ∧
    assembleLine "set_buf_len 9" = some [⟨0x0A000000#32, 9#32⟩] := by decide +kernel

/-- R89's refusals: an operand out of its range, an unknown mnemonic. -/
theorem test_assembler_refuses :
    assembleLine "update_imm 5, 0" = none ∧ assembleLine "update_imm 0, 0" = none ∧
    assembleLine "update_imm 1, 0x100" = none ∧ assembleLine "write_buf 65536, 0" = none ∧
    assembleLine "write_buf 0, 256" = none ∧ assembleLine "read_reg TABLE+256" = none ∧
    assembleLine "set_poly" = none ∧ assembleLine "jump 0" = none := by decide +kernel

/-- R90, with V2.6.1's bytes and the words of P4. -/
theorem test_assembler_pseudo :
    assembleLine "load_bytes 0, 0x31, 0x32, 0x33, 0x34, 0x35" =
      some [⟨0x09000000#32, 0x34333231#32⟩, ⟨0x08000004#32, 0x35#32⟩] ∧
    assembleLine "update_bytes 0x31, 0x32, 0x33, 0x34, 0x39" =
      some [⟨0x05000003#32, 0x34333231#32⟩, ⟨0x05000000#32, 0x39#32⟩] ∧
    assembleLine "select_poly 0" = some [⟨0x01000000#32, 0#32⟩, ⟨0x02000000#32, 0#32⟩] ∧
    assembleLine "start 0" = some [⟨0x03000000#32, 0#32⟩, ⟨0x04000000#32, 0#32⟩] ∧
    assembleLine "read_digest" =
      some [⟨0x0B000004#32, 0#32⟩, ⟨0x0B000005#32, 0#32⟩, ⟨0x0B000006#32, 0#32⟩, ⟨0x0B000007#32, 0#32⟩] := by
  decide +kernel

/-- R261's cycle counts. -/
theorem test_reference_cycles :
    referenceCycles true ⟨0x02000000#32, 0#32⟩ State.reset = 1 ∧
    referenceCycles false ⟨0x02000000#32, 0#32⟩ State.reset = 256 ∧
    referenceCycles true ⟨0x02000000#32, 0#32⟩ staged = 1 ∧
    referenceCycles true ⟨0x05000002#32, 0#32⟩ State.reset = 3 ∧
    referenceCycles true ⟨0x06000000#32, 9#32⟩ (loaded .opened) = 10 ∧
    referenceCycles true ⟨0xFF000000#32, 0#32⟩ State.reset = 1 := by decide +kernel

/-- A port that is ready, the cycle of an acceptance, and the cycle of the response (R262). -/
def idlePort : PortState := ⟨State.reset, 0, none⟩
def offering (cmd arg : Word) : PortPins := ⟨true, true, ⟨cmd, arg⟩⟩

theorem test_port_accepts_and_answers :
    (portRun ⟨true, false⟩ idlePort [offering 0x0B000000#32 0#32, offering 0#32 0#32]).1 =
      [⟨true, none⟩, ⟨false, some ⟨0#4, 0xEDB88320#32⟩⟩] := by decide +kernel

theorem test_port_reset_abandons_the_command :
    (portCycle ⟨true, false⟩ { idlePort with inFlight := some (⟨0x01000000#32, 0#32⟩, 1) }
      ⟨false, false, ⟨0#32, 0#32⟩⟩).1 = ⟨false, none⟩ ∧
    (portCycle ⟨true, false⟩ { idlePort with inFlight := some (⟨0x01000000#32, 0#32⟩, 1) }
      ⟨false, false, ⟨0#32, 0#32⟩⟩).2.1 = ⟨State.reset, 256, none⟩ := by decide +kernel

/-! ## Witnesses -/

/-- A result that goes on is the state it goes on with. -/
theorem eq_next_after {r : Result} (h : goesOn r = true) : r = .next (after r) := by
  cases r with
  | next t => rfl
  | fault f => cases h
  | refused f => cases h

/-- Reset with commands offered. -/
def offering0 (cs : List (Word × Word)) : State :=
  { State.reset with inputs := cs.map fun c => .command ⟨c.1, c.2⟩ }

theorem offering0_inv (cs : List (Word × Word)) : (offering0 cs).Inv :=
  ⟨reset_inv.config, reset_inv.bufWf, reset_inv.bufBound, reset_inv.bufLen, rfl, reset_inv.record, reset_inv.code,
    nofun⟩

/-- A run over offered commands goes on. -/
theorem run_goes_on {k : Nat} {s : State} (h : goesOn (run k s) = true) : ∃ t, run k s = .next t :=
  ⟨_, eq_next_after h⟩

theorem witness_ResetGivesEveryElementItsValue :
    ∃ s : State, s = State.reset ∧ ∃ cfg inputs responses, s = State.resetWith cfg inputs responses :=
  ⟨State.reset, rfl, Config.reference, [], [], rfl⟩

theorem witness_HardwareResetFromAnyState :
    ({ staged with inputs := [.hardwareReset (some ⟨0x02000000#32, 0#32⟩), .command ⟨0#32, 0#32⟩] } : State).inputs =
      .hardwareReset (some ⟨0x02000000#32, 0#32⟩) :: [.command ⟨0#32, 0#32⟩] := rfl

theorem witness_IdleBlockKeepsItsState :
    staged.inputs = [] ∧ ∃ t, step (offering0 [(0x01000000#32, 0#32)]) = .next t ∧ t ≠ offering0 [(0x01000000#32, 0#32)] :=
  ⟨rfl, _, rfl, fun h => absurd (congrArg State.inputs h) (by decide)⟩

theorem witness_StepPerformsTheDecodedCommand :
    (offering0 [(0x0A000000#32, 256#32), (0#32, 0#32)]).inputs =
      .command ⟨0x0A000000#32, 256#32⟩ :: [.command ⟨0#32, 0#32⟩] ∧
    decode ⟨0x0A000000#32, 256#32⟩ = .ok (.setBufLen 256#32) := ⟨rfl, by decide⟩

theorem witness_IllegalWordsAreExactlyThese :
    (offering0 [(0x0E000000#32, 0#32)]).inputs = [.command ⟨0x0E000000#32, 0#32⟩] ∧
    (∃ why, decode ⟨0x0E000000#32, 0#32⟩ = .error why) ∧ decode ⟨0x0D000000#32, 0#32⟩ = .ok .clearErr ∧
    decode ⟨0x05000003#32, 0#32⟩ = .ok (.updateImm 3#2 0#32) ∧ (∃ why, decode ⟨0x05000004#32, 0#32⟩ = .error why) ∧
    (∃ why, decode ⟨0x06010000#32, 0#32⟩ = .error why) ∧ (∃ why, decode ⟨0x0D000001#32, 0#32⟩ = .error why) :=
  ⟨rfl, ⟨.reservedOpcode, by decide⟩, by decide, by decide, ⟨.countFieldNotZero, by decide⟩,
    ⟨.reservedFieldNotZero, by decide⟩, .immediateNotZero, by decide⟩

theorem witness_CommandsTakeEffectInOrder :
    ∃ t, run [PortInput.command ⟨0x01000000#32, 7#32⟩, .hardwareReset none].length
      { State.reset with inputs := [.command ⟨0x01000000#32, 7#32⟩, .hardwareReset none] } = .next t :=
  run_goes_on (by decide +kernel)

/-- An illegal word of every opcode, nearest to its legal words: the hypotheses of `onlyLegalWords`. -/
theorem witness_onlyLegalWords :
    (∀ o ∈ [0x00#8, 0x01#8, 0x02#8, 0x03#8, 0x04#8, 0x07#8, 0x0A#8, 0x0D#8],
      (cmdWord o 1#16).extractLsb' 24 8 = o ∧ cmdWord o 1#16 ≠ cmdWord o 0#16) ∧
    (∀ o ∈ [0x06#8, 0x08#8, 0x09#8, 0x0B#8, 0x0C#8],
      (o ++ 0x01#8 ++ 0#16 : Word).extractLsb' 24 8 = o ∧ (o ++ 0x01#8 ++ 0#16 : Word).extractLsb' 16 8 ≠ 0#8) ∧
    ((0x05000004#32).extractLsb' 24 8 = 0x05#8 ∧ (0x05000004#32).extractLsb' 2 22 ≠ 0#22) := by decide +kernel

theorem witness_DecodeOfEncodeIsTheCommand :
    Instr.wf (.updateImm 0#2 0xFF#32) = true ∧ Instr.wf (.updateImm 2#2 0x00FFFFFF#32) = true ∧
    Instr.wf (.updateBuf 0xFFFF#16 0xFFFFFFFF#32) = true ∧ Instr.wf (.readReg 0xFFFF#16) = true := by decide

theorem witness_IgnoredArgBitsHaveNoEffect :
    decode ⟨0x080000FF#32, 0x1234#32⟩ = .ok (.writeBuf 255#16 0x34#8) ∧
    0xFF34#32 &&& usedArgBits (.writeBuf 255#16 0x34#8) = 0x1234#32 &&& usedArgBits (.writeBuf 255#16 0x34#8) := by
  decide

theorem witness_BuildTableReplacesTheWholeTable :
    ¬ ((inPhase .active).phase = .active ∧ (inPhase .active).poly ≠ (inPhase .active).tblPoly) ∧
    ¬ ({ staged with phase := .final }.phase = Phase.active ∧ staged.poly ≠ staged.tblPoly) ∧
    (staged.phase = .active ∧ staged.poly ≠ staged.tblPoly) := by decide

theorem witness_RebuildOfTheHeldTableChangesNothing :
    (inPhase .active).Inv ∧ (inPhase .active).poly = (inPhase .active).tblPoly := ⟨inPhase_inv _, rfl⟩

theorem witness_EntryIsEightShiftAndXorSteps :
    let c : Nat → Word := fun k => entrySteps 0xEDB88320#32 k 0x01#32
    c 0 = (0x01#8).setWidth 32 ∧ ∀ k, k < 8 →
      c (k + 1) = if (c k).getLsbD 0 = true then (c k >>> 1) ^^^ 0xEDB88320#32 else c k >>> 1 := by decide +kernel

theorem witness_UpdateImmFoldsItsBytes :
    (inPhase .opened).phase ≠ .final ∧ (inPhase .active).phase ≠ .final ∧ (inPhase .final).phase = .final := by decide

theorem witness_UpdateBufFoldsTheBuffer :
    ((loaded .opened).bufLen.toNat ≤ (loaded .opened).bufSize ∧ (loaded .opened).phase ≠ .final ∧
      (9#16).toNat + (0#32).toNat ≤ (loaded .opened).bufLen.toNat ∧
      (0#16).toNat + (9#32).toNat ≤ (loaded .opened).bufLen.toNat) ∧
    (loaded .final).phase = .final ∧
    ((loaded .active).phase ≠ .final ∧ (loaded .active).bufLen.toNat < (10#16).toNat + (0#32).toNat ∧
      (loaded .active).bufLen.toNat < (9#16).toNat + (1#32).toNat) := by decide

theorem witness_AnySplitOfTheDataGivesTheSameCrc :
    let is : List Instr := [.updateImm 1#2 0x6261#32, .updateImm 0#2 0x63#32]
    let js : List Instr := [.updateImm 2#2 0x636261#32]
    (∀ i ∈ is, i.isUpdate = true ∧ i.wf = true) ∧ (∀ i ∈ js, i.isUpdate = true ∧ i.wf = true) ∧
    is.flatMap (Instr.updateData State.reset.buf) = js.flatMap (Instr.updateData State.reset.buf) ∧
    (∃ t, run is.length { State.reset with inputs := offered is } = .next t ∧
      t.responses = State.reset.responses ++ List.replicate is.length okResponse) ∧
    ∃ u, run js.length { State.reset with inputs := offered js } = .next u ∧
      u.responses = State.reset.responses ++ List.replicate js.length okResponse :=
  ⟨by decide, by decide, by decide, ⟨_, eq_next_after (by decide +kernel), by decide +kernel⟩,
    _, eq_next_after (by decide +kernel), by decide +kernel⟩

/-- V2.2.6: a session from reset and one after a finalized session. -/
theorem witness_RestartReproducesTheDigest :
    let is : List Instr := [.updateImm 2#2 0x636261#32]
    (inPhase .final).table = State.reset.table ∧ (inPhase .final).seed = State.reset.seed ∧
    (∀ i ∈ is, i.isUpdate = true ∧ i.wf = true) ∧
    (∃ t, run (is.length + 2) { State.reset with inputs := offered (.reset :: is ++ [.finalize]) } = .next t ∧
      t.responses = State.reset.responses ++ List.replicate (is.length + 2) okResponse) ∧
    ∃ t', run (is.length + 2) { inPhase .final with inputs := offered (.reset :: is ++ [.finalize]) } = .next t' ∧
      t'.responses = (inPhase .final).responses ++ List.replicate (is.length + 2) okResponse :=
  ⟨rfl, rfl, by decide, ⟨_, eq_next_after (by decide +kernel), by decide +kernel⟩,
    _, eq_next_after (by decide +kernel), by decide +kernel⟩

theorem witness_FinalizeLatchesTheComplement : (inPhase .final).Inv ∧ (inPhase .final).phase = .final :=
  ⟨inPhase_inv _, rfl⟩

theorem witness_ResultChangesOnlyAtFinalize :
    (∃ t, step (offering0 [(0x07000000#32, 0#32)]) = .next t) ∧ (∃ t, step (offering0 [(0x04000000#32, 0#32)]) = .next t) ∧
    ∃ t, step { State.reset with inputs := [.hardwareReset none] } = .next t := ⟨⟨_, rfl⟩, ⟨_, rfl⟩, _, rfl⟩

theorem witness_FinalizedSessionKeepsItsValue :
    let cs : List Command := [⟨0x05000000#32, 0x63#32⟩, ⟨0x07000000#32, 0#32⟩]
    (inPhase .final).Inv ∧ (inPhase .final).phase = .final ∧ (∀ c ∈ cs, decode c ≠ .ok .reset) ∧
    (∃ t, run cs.length { inPhase .final with inputs := cs.map .command } = .next t) ∧
    Instr.isUpdate (.updateBuf 0#16 0#32) = true :=
  ⟨inPhase_inv _, rfl, by decide, run_goes_on (by decide +kernel), rfl⟩

theorem witness_WriteBufWritesOneByte :
    State.reset.buf.wf ∧ (255#16).toNat < State.reset.bufSize ∧ State.reset.bufSize ≤ (256#16).toNat := by decide

theorem witness_WriteBuf4WritesFourBytes :
    State.reset.buf.wf ∧ (252#16).toNat + 4 ≤ State.reset.bufSize ∧ State.reset.bufSize < (253#16).toNat + 4 := by decide

theorem witness_SetBufLenWritesTheLength :
    (256#32).toNat ≤ State.reset.bufSize ∧ State.reset.bufSize < (257#32).toNat := by decide

theorem witness_ReadBufAnswersOneByte :
    (255#16).toNat < State.reset.bufSize ∧ State.reset.bufSize ≤ (256#16).toNat := by decide

theorem witness_ReadRegAnswersTheIndexMap :
    State.reset.Inv ∧ (0x000C ≤ (0x000C#16).toNat ∧ (0x000C#16).toNat ≤ 0x00FF) ∧ (0x000C ≤ (0x00FF#16).toNat ∧ (0x00FF#16).toNat ≤ 0x00FF) ∧
    0x0200 ≤ (0x0200#16).toNat ∧ 0x0200 ≤ (0xFFFF#16).toNat := ⟨reset_inv, by decide⟩

theorem witness_FourByteWriteReadsBackByteByByte :
    (loaded .opened).Inv ∧ (5#16).toNat + 4 ≤ (loaded .opened).bufSize ∧
    ∃ t, exec (.writeBuf4 5#16 0xDDCCBBAA#32) (loaded .opened) = .next t ∧ (5#16).toNat + 4 ≤ t.bufLen.toNat :=
  ⟨loaded_inv _, by decide, _, eq_next_after (by decide +kernel), by decide +kernel⟩

theorem witness_EveryTransactionIsAnsweredOnce :
    (offering0 [(0xFF000000#32, 0#32)]).Inv ∧
    (offering0 [(0xFF000000#32, 0#32)]).inputs = .command ⟨0xFF000000#32, 0#32⟩ :: [] := ⟨offering0_inv _, rfl⟩

theorem witness_RejectionChangesTheErrorRecordAlone :
    (offering0 [(0x0B00000C#32, 0#32)]).inputs = .command ⟨0x0B00000C#32, 0#32⟩ :: [] ∧
    ∃ t, step (offering0 [(0x0B00000C#32, 0#32)]) = .next t ∧
      t.responses = (offering0 [(0x0B00000C#32, 0#32)]).responses ++ [⟨5#4, 0#32⟩] ∧ (5#4 : Nibble) ≠ 0#4 :=
  ⟨rfl, _, eq_next_after (by decide +kernel), by decide +kernel, by decide⟩

/-- A cause of each kind at its boundary, and commands with none just inside it. -/
theorem witness_RejectionCausesAndPriority :
    ErrorCause staged .buildTable 4#4 ∧ ErrorCause (inPhase .final) (.updateImm 0#2 0#32) 3#4 ∧
    ErrorCause (inPhase .final) (.updateBuf 1#16 0#32) 3#4 ∧ ErrorCause (loaded .opened) (.updateBuf 10#16 0#32) 2#4 ∧
    ErrorCause State.reset (.writeBuf 256#16 0#8) 2#4 ∧ ErrorCause State.reset (.writeBuf4 253#16 0#32) 2#4 ∧
    ErrorCause State.reset (.setBufLen 257#32) 2#4 ∧ ErrorCause State.reset (.readBuf 256#16) 2#4 ∧
    ErrorCause State.reset (.readReg 0x000C#16) 5#4 ∧
    (∀ code, ¬ ErrorCause State.reset (.writeBuf 255#16 0#8) code) ∧
    (∀ code, ¬ ErrorCause (loaded .opened) (.updateBuf 9#16 0#32) code) ∧
    (∀ code, ¬ ErrorCause State.reset (.readReg 0x01FF#16) code) := by
  refine ⟨.tableInUse rfl (by decide), .closedImm _ _ rfl, .closedBuf _ _ rfl, .rangeBuf _ _ (by decide) (by decide),
    .rangeWrite _ _ (by decide), .rangeWrite4 _ _ (by decide), .rangeLength _ (by decide), .rangeRead _ (by decide),
    .badReg _ (by unfold mappedIndex; decide), fun code h => ?_, fun code h => ?_, fun code h => ?_⟩
  · cases h with
    | rangeWrite _ _ h => exact absurd h (by decide)
  · cases h with
    | closedBuf _ _ h => exact absurd h (by decide)
    | rangeBuf _ _ _ h => exact absurd h (by decide)
  · cases h with
    | badReg _ h => exact h (by unfold mappedIndex; decide)

/-- A first error, a second one, a cleared record, and a hardware reset. -/
theorem witness_ErrorRecordKeepsTheFirstCode :
    (∃ t, step (offering0 [(0xFF000000#32, 0#32)]) = .next t ∧
      t.responses = (offering0 [(0xFF000000#32, 0#32)]).responses ++ [⟨1#4, 0#32⟩]) ∧
    (∃ t, step { recorded 1#4 .opened with inputs := [.command ⟨0x08000100#32, 0#32⟩] } = .next t ∧
      t.responses = [] ++ [⟨2#4, 0#32⟩]) ∧
    (∃ t, step { recorded 1#4 .opened with inputs := [.command ⟨0x0D000000#32, 0#32⟩] } = .next t ∧
      t.responses = [] ++ [⟨0#4, 0#32⟩] ∧ decode ⟨0x0D000000#32, 0#32⟩ = .ok .clearErr) ∧
    ∃ t, step { recorded 1#4 .opened with inputs := [.hardwareReset none] } = .next t :=
  ⟨⟨_, eq_next_after (by decide +kernel), by decide +kernel⟩, ⟨_, eq_next_after (by decide +kernel), by decide +kernel⟩,
    ⟨_, eq_next_after (by decide +kernel), by decide +kernel, by decide⟩, _, rfl⟩

theorem witness_recorded_inv : (recorded 1#4 .opened).Inv :=
  ⟨by decide, wf_nil, reset_inv.bufBound, by decide, rfl, by decide, by decide, nofun⟩

theorem witness_ReadsAndRepeatedWrites :
    goesOn (exec (.readReg 0x01FF#16) State.reset) = true ∧ goesOn (exec (.readBuf 255#16) State.reset) = true ∧
    goesOn (exec (.readReg 0xFFFF#16) State.reset) = true ∧ State.reset.Inv ∧
    Instr.isUpdate (.writeBuf4 252#16 1#32) = false ∧ goesOn (exec (.writeBuf4 252#16 1#32) State.reset) = true ∧
    goesOn (exec .buildTable staged) = true ∧ staged.Inv :=
  ⟨by decide +kernel, by decide +kernel, by decide +kernel, reset_inv, rfl, by decide +kernel, by decide +kernel,
    staged_inv⟩

/-- An update answered with OK, and a read that is rejected. -/
theorem witness_ReadsAndRepeatedWrites_updates :
    (∃ t, exec (.updateBuf 0#16 9#32) (loaded .opened) = .next t ∧
      t.responses = (loaded .opened).responses ++ [okResponse]) ∧
    ∃ t, exec (.readBuf 256#16) State.reset = .next t ∧ t.responses = State.reset.responses ++ [⟨2#4, 0#32⟩] :=
  ⟨⟨_, eq_next_after (by decide +kernel), by decide +kernel⟩, _, eq_next_after (by decide +kernel), by decide +kernel⟩

theorem witness_StepKeepsTheInvariant :
    (∃ t, (offering0 [(0x080000FF#32, 1#32)]).Inv ∧ step (offering0 [(0x080000FF#32, 1#32)]) = .next t) ∧
    ∃ t, (offering0 [(0x07000000#32, 0#32)]).Inv ∧ step (offering0 [(0x07000000#32, 0#32)]) = .next t :=
  ⟨⟨_, offering0_inv _, rfl⟩, _, offering0_inv _, rfl⟩

theorem witness_ResetSatisfiesTheInvariant :
    Config.wf ⟨1#16, ⟨"", 0, 0⟩⟩ ∧ Config.wf ⟨0xFFFF#16, ⟨"", 0, 0⟩⟩ ∧ ¬ Config.wf ⟨0#16, ⟨"", 0, 0⟩⟩ := by decide

/-- A step of each row of the phase table, with `update_buf` at the boundaries of its two conditions. -/
theorem witness_PhaseMovesAsItsTableSays :
    step State.reset = .next State.reset ∧
    ([(0x04000000#32, 0#32), (0x07000000#32, 0#32), (0x05000000#32, 0#32), (0x06000009#32, 0#32), (0x06000008#32, 1#32),
      (0x06000009#32, 1#32), (0#32, 0#32)].map fun c =>
        goesOn (step { loaded .opened with inputs := [.command ⟨c.1, c.2⟩] })) = List.replicate 7 true ∧
    goesOn (step { loaded .final with inputs := [.command ⟨0x05000000#32, 0#32⟩] }) = true ∧
    goesOn (step { loaded .final with inputs := [.command ⟨0xFF000000#32, 0#32⟩] }) = true ∧
    goesOn (step { loaded .active with inputs := [.hardwareReset none] }) = true := by
  refine ⟨rfl, by decide +kernel, by decide +kernel, by decide +kernel, rfl⟩

/-- A command that changes each element. -/
theorem witness_EachElementHasItsOwnWriters :
    (send 0x01000000#32 7#32 State.reset).poly ≠ State.reset.poly ∧
    (send 0x03000000#32 7#32 State.reset).seed ≠ State.reset.seed ∧
    (send 0x05000000#32 7#32 State.reset).crc ≠ State.reset.crc ∧
    (send 0x06000000#32 9#32 (loaded .opened)).crc ≠ (loaded .opened).crc ∧
    (send 0x07000000#32 0#32 (loaded .opened)).phase ≠ (loaded .opened).phase ∧
    (send 0x02000000#32 0#32 { staged with phase := .final }).tblPoly ≠ staged.tblPoly ∧
    (send 0x08000000#32 7#32 State.reset).buf ≠ State.reset.buf ∧
    (send 0x0A000000#32 7#32 State.reset).bufLen ≠ State.reset.bufLen ∧
    (send 0x0B00FFFF#32 7#32 State.reset).err ≠ State.reset.err := by decide +kernel

theorem witness_EachElementHasItsOwnWriters_result :
    (send 0x07000000#32 0#32 { State.reset with crc := 0#32 }).result ≠ State.reset.result := by decide +kernel

theorem witness_HostBindingIsNeverRead : ∃ t, step (offering0 [(0x02000000#32, 0#32)]) = .next t := ⟨_, rfl⟩

/-- A `set_poly` in an ACTIVE session and an update of each kind, accepted before the build. -/
theorem witness_StagedPolynomialWaitsForTheBuild_before :
    let cs : List Command := [⟨0x05000000#32, 0x31#32⟩, ⟨0xFF000000#32, 0#32⟩]
    (loaded .active).Inv ∧ (∀ c ∈ cs, decode c ≠ .ok .buildTable) ∧
    (∀ i ∈ [Instr.updateImm 3#2 0x34333231#32, .updateBuf 0#16 9#32], i.isUpdate = true) ∧
    ∃ t x y, run (cs.length + 1)
        { loaded .active with inputs := .command (encode (.setPoly 0x82F63B78#32)) :: cs.map .command } = .next t ∧
      (exec (.updateImm 3#2 0x34333231#32) t = .next x ∧ x.responses = t.responses ++ [okResponse]) ∧
      (exec (.updateBuf 0#16 9#32) t = .next y ∧ y.responses = t.responses ++ [okResponse]) :=
  ⟨loaded_inv _, by decide, by decide, _, _, _, eq_next_after (by decide +kernel),
    ⟨eq_next_after (by decide +kernel), by decide +kernel⟩, eq_next_after (by decide +kernel), by decide +kernel⟩

/-- A build accepted after a `reset`, then another polynomial staged, then an accepted update. -/
theorem witness_StagedPolynomialWaitsForTheBuild_after :
    let cs : List Command := [⟨0x04000000#32, 0#32⟩]
    let ds : List Command := [⟨0x01000000#32, 7#32⟩]
    (loaded .active).Inv ∧ (∀ c ∈ cs, ∀ q, decode c ≠ .ok (.setPoly q)) ∧ (∀ c ∈ ds, decode c ≠ .ok .buildTable) ∧
    ∃ t u w x, run (cs.length + 1)
        { loaded .active with inputs := .command (encode (.setPoly 0x82F63B78#32)) :: cs.map .command } = .next t ∧
      (exec .buildTable t = .next u ∧ u.responses = t.responses ++ [okResponse]) ∧
      run ds.length { u with inputs := ds.map .command } = .next w ∧
      (exec (.updateBuf 0#16 9#32) w = .next x ∧ x.responses = w.responses ++ [okResponse]) :=
  ⟨loaded_inv _, fun c hc => by cases List.mem_singleton.1 hc; exact nofun, by decide, _, _, _, _,
    eq_next_after (by decide +kernel), ⟨eq_next_after (by decide +kernel), by decide +kernel⟩,
    eq_next_after (by decide +kernel), eq_next_after (by decide +kernel), by decide +kernel⟩

/-- Commands between `set_seed` and `reset`, in an ACTIVE session; and, for the second clause, a `reset` among them. -/
theorem witness_SeedWaitsForTheReset :
    let cs : List Command := [⟨0x05000000#32, 0x31#32⟩, ⟨0x0B000001#32, 0#32⟩]
    let ds : List Command := [⟨0x04000000#32, 0#32⟩, ⟨0x05000000#32, 0x31#32⟩]
    (∀ c ∈ cs, decode c ≠ .ok .reset ∧ ∀ w, decode c ≠ .ok (.setSeed w)) ∧
    (∃ u, run cs.length { inPhase .active with inputs := cs.map .command } = .next u) ∧
    (∀ c ∈ ds, ∀ w, decode c ≠ .ok (.setSeed w)) ∧
    ∃ t, run (ds.length + 2) { inPhase .active with inputs := .command (encode (.setSeed 0#32)) :: ds.map .command ++
      [.command (encode .reset)] } = .next t := by
  refine ⟨fun c hc => ?_, run_goes_on (by decide +kernel), fun c hc => ?_, run_goes_on (by decide +kernel)⟩
  · rcases List.mem_cons.1 hc with rfl | hc
    · exact ⟨nofun, nofun⟩
    · cases List.mem_singleton.1 hc
      exact ⟨nofun, nofun⟩
  · rcases List.mem_cons.1 hc with rfl | hc
    · exact nofun
    · cases List.mem_singleton.1 hc
      exact nofun

theorem witness_ActiveSessionKeepsItsTable :
    let cs : List Command := [⟨0x01000000#32, 7#32⟩, ⟨0x02000000#32, 0#32⟩]
    (inPhase .active).Inv ∧ (inPhase .active).phase = .active ∧
    (∀ c ∈ cs, decode c ≠ .ok .reset ∧ decode c ≠ .ok .finalize) ∧
    ∃ t, run cs.length { inPhase .active with inputs := cs.map .command } = .next t :=
  ⟨inPhase_inv _, rfl, by decide, run_goes_on (by decide +kernel)⟩

/-- A buffer's worth of bytes, and no byte. -/
theorem witness_OneShotComputeFromAnyState :
    staged.Inv ∧ (List.replicate 256 0x5A#8).length ≤ staged.bufSize ∧ ([] : List Byte).length ≤ staged.bufSize ∧
    staged.tblPoly = 0xEDB88320#32 := ⟨staged_inv, by decide +kernel, by decide, rfl⟩

theorem witness_OneShotVariantsAgree :
    (inPhase .final).Inv ∧ ∀ bs ∈ [checkBytes, [], List.replicate 256 0x5A#8], bs.length ≤ (inPhase .final).bufSize :=
  ⟨inPhase_inv _, by decide +kernel⟩

theorem witness_DefaultComputeFromReset :
    Config.reference.wf ∧ (List.replicate 256 0x5A#8).length ≤ Config.reference.bufSize.toNat := by decide +kernel

/-- An offset and length that end at the last byte, and one past it. -/
theorem witness_EngineUpdateChecksTheSourceBounds :
    State.reset.Inv ∧ State.reset.phase ≠ .final ∧ checkBytes.length ≤ State.reset.bufSize ∧
    (3#16).toNat + (6#32).toNat ≤ checkBytes.length ∧ checkBytes.length < (3#16).toNat + (7#32).toNat :=
  ⟨reset_inv, by decide⟩

theorem witness_AssemblerWritesLegalWords :
    asmInstrs (.updateBytes [0x31, 0x32]) = some [.updateImm 1#2 0x3231#32] ∧ 2 ^ 8 ≤ 0x100 ∧ 2 ^ 32 ≤ 0x100000000 ∧
    (∃ b ∈ [0xFF, 0x100], 2 ^ 8 ≤ b) ∧ [0x31] ≠ [] ∧ 2 ^ 16 ≤ 0x10000 := by decide +kernel

/-- Each row of the syntax table at its last operand and one past it. -/
theorem test_assembler_bounds :
    assemble (.setPoly 0xFFFFFFFF) = some [⟨0x01000000#32, 0xFFFFFFFF#32⟩] ∧ assemble (.setPoly 0x100000000) = none ∧
    assemble (.updateBuf 0xFFFF 0) = some [⟨0x0600FFFF#32, 0#32⟩] ∧ assemble (.updateBuf 0x10000 0) = none ∧
    assemble (.readReg 0xFFFF) = some [⟨0x0B00FFFF#32, 0#32⟩] ∧ assemble (.readBuf 0x10000) = none ∧
    assemble (.writeBuf4 0 0x100000000) = none ∧ assemble (.rawWords 0x100000000 0) = none := by decide +kernel

theorem witness_LoadBytesExpandsAsTheFacadeDoes :
    0xFFFB + [0x31#8, 0x32#8, 0x33#8, 0x34#8, 0x35#8].length ≤ 2 ^ 16 := by decide

theorem witness_EveryCommandEndsInBoundedTime : (loaded .opened).Inv := loaded_inv _

theorem witness_ReferencePortRefinesTheMachine : idlePort.block.Inv ∧ idlePort.block.inputs = [] := ⟨reset_inv, rfl⟩

/-- A cycle that accepts, one that is ready with nothing offered, and one in flight that is not ready. -/
theorem witness_AcceptedCommandIsAnsweredOnTime_acceptance :
    (portCycle ⟨true, true⟩ { idlePort with inFlight := some (⟨0#32, 0#32⟩, 1) } (offering 0x05000002#32 0#32)).1.cmdReady
      = true ∧
    (portCycle ⟨true, false⟩ idlePort ⟨true, false, ⟨0#32, 0#32⟩⟩).1.cmdReady = true ∧
    (portCycle ⟨true, false⟩ { idlePort with inFlight := some (⟨0#32, 0#32⟩, 2) } (offering 0#32 0#32)).1.cmdReady
      = false ∧
    (portCycle ⟨true, false⟩ { idlePort with inFlight := some (⟨0#32, 0#32⟩, 2) } (offering 0#32 0#32)).2.1.inFlight
      = some (⟨0#32, 0#32⟩, 1) := by decide +kernel

theorem witness_AcceptedCommandIsAnsweredOnTime :
    let s : PortState := { idlePort with inFlight := some (⟨0x05000002#32, 0x636261#32⟩, 2 + 1) }
    let first : PortPins := offering 0x05000002#32 0x636261#32
    let pins : List PortPins := List.replicate 3 (offering 0#32 0#32)
    s.block.Inv ∧ s.block.inputs = [] ∧ s.boot = 0 ∧ pins.length = 2 + 1 ∧ (∀ x ∈ pins, x.rstN = true) ∧
    idlePort.inFlight = none ∧ first.rstN = true ∧ first.cmdValid = true ∧
    pins.length = referenceCycles true first.command idlePort.block :=
  ⟨reset_inv, rfl, rfl, rfl, by decide, rfl, rfl, rfl, by decide +kernel⟩

end Sys2Proof.Tests
end

/-! PROOFS. The statements of 00_scope.md: the signed reading of a word (R12), and the one response of every
transaction (R11). -/

namespace Sys2Proof.Machine

/-! ## The signed reading -/

/-- s32 is the library's two's-complement reading (R12). -/
theorem s32_eq_toInt (v : Word) : s32 v = v.toInt := by
  have hcond : 2 * v.toNat < 2 ^ 32 ↔ v.toNat < 2 ^ 31 := by omega
  simp only [s32, BitVec.toInt_eq_toNat_cond, hcond]
  norm_cast

/-- Settles O53: s32 is `BitVec.toInt`, whose sign is the top bit. -/
theorem signedReadingKeepsTheBits : Obligations.SignedReadingKeepsTheBits := by
  intro v
  rw [s32_eq_toInt]
  refine ⟨BitVec.ofInt_toInt, BitVec.le_toInt v, BitVec.toInt_lt, ?_⟩
  rw [← BitVec.msb_eq_getLsbD_last v, BitVec.msb_eq_toInt, decide_eq_true_iff]

/-! ## The response of a transaction -/

/-- The step with a command offered first is its transaction, on the state whose port has taken it (R11, R63). -/
theorem step_of_command {s : State} {c : Command} {rest : List PortInput} (h : s.inputs = .command c :: rest) :
    step s = perform c (s.accept rest) := by
  rw [step, h]

/-- Only the two reads have DATA other than 0 (R92). -/
theorem isRead_of_answer_ne_zero {s : State} {i : Instr} (h : answer s i ≠ 0#32) :
    ∃ a, i = .readReg a ∨ i = .readBuf a := by
  cases i with
  | readReg idx => exact ⟨idx, .inl rfl⟩
  | readBuf a => exact ⟨a, .inr rfl⟩
  | _ => exact absurd rfl h

/-- With BUF_LEN <= BUF_SIZE every transaction goes on: it is a rejection with the code of an error, or the decoded
command's effect and answer. -/
theorem perform_next_cases (c : Command) {s : State} (hb : s.bufLen.toNat ≤ s.bufSize) :
    (∃ e, perform c s = .next (rejectedWith (errorCode e) s)) ∨
    (∃ i, decode c = .ok i ∧ perform c s = .next (answeredOk (answer s i) (effect s i))) := by
  rcases perform_cases c s with ⟨_, _, hp⟩ | ⟨i, hd, hp⟩
  · exact .inl ⟨.illegal, hp.trans (reject_eq_rejectedWith .illegal s)⟩
  · rcases exec_next_cases i hb with ⟨e, _, he⟩ | ⟨_, he⟩
    · exact .inl ⟨e, hp.trans he⟩
    · exact .inr ⟨i, hd, hp.trans he⟩

/-- Settles O37: a transaction appends the one response of its rejection, or of its effect. -/
theorem everyTransactionIsAnsweredOnce : Obligations.EveryTransactionIsAnsweredOnce := by
  intro s c rest hinv hin
  rw [step_of_command hin]
  rcases perform_next_cases c (s := s.accept rest) hinv.bufLen with ⟨e, hp⟩ | ⟨i, hd, hp⟩
  · exact ⟨_, ⟨errorCode e, 0#32⟩, hp, rfl, rfl, errorCode_le e, fun _ => rfl, fun hdata => absurd rfl hdata⟩
  · refine ⟨_, ⟨0#4, answer (s.accept rest) i⟩, hp, by simp, by simp, Nat.zero_le 5, fun hok => absurd rfl hok, ?_⟩
    intro hdata
    obtain ⟨a, rfl | rfl⟩ := isRead_of_answer_ne_zero hdata
    · exact ⟨a, .inl hd⟩
    · exact ⟨a, .inr hd⟩

end Sys2Proof.Machine

/-! PROOFS. The statements of 10_state.md: the invariant every step keeps (R31, R33, R35, R164), the error record (R35),
PHASE (R28), the writers of each element (R37, R138), and what `read_reg` shows of the state (R34, R38). -/

namespace Sys2Proof.Machine

/-! ## The step of an offered command -/

/-- A step with a command offered first either rejects it, the word or the decoded command, or has its effect. -/
theorem step_command_next {s t : State} {c : Command} {rest : List PortInput}
    (hin : s.inputs = .command c :: rest) (h : step s = .next t) :
    (∃ e, (∀ i, decode c = .ok i → rejection s i = some e) ∧
      t = rejectedWith (errorCode e) { s with inputs := rest }) ∨
    (∃ i, decode c = .ok i ∧ rejection s i = none ∧
      t = { effect s i with inputs := rest, responses := s.responses ++ [⟨0#4, answer s i⟩] }) := by
  rcases step_next h with ⟨hnil, _⟩ | ⟨f, rest', hreset, _⟩ | ⟨c', rest', hcmd, hcases⟩
  · rw [hin] at hnil; cases hnil
  · rw [hin] at hreset; cases hreset
  · rw [hin] at hcmd
    cases hcmd
    rcases hcases with ⟨why, hd, ht⟩ | ⟨i, e, hd, hr, ht⟩ | ⟨i, hd, hr, _, ht⟩
    · exact .inl ⟨.illegal, fun i hi => (by rw [hd] at hi; cases hi), ht⟩
    · exact .inl ⟨e, fun j hj => (by rw [hd] at hj; cases hj; exact hr), ht⟩
    · exact .inr ⟨i, hd, hr, ht⟩

/-! ## The invariant -/

/-- The invariant says nothing of the port. -/
theorem withPort_inv {s : State} (h : s.Inv) (inputs : List PortInput) (responses : List Response) :
    { s with inputs := inputs, responses := responses }.Inv :=
  ⟨h.config, h.bufWf, h.bufBound, h.bufLen, h.table, h.record, h.code, h.final⟩

/-- The reset state satisfies the invariant in every legal configuration (R251). -/
theorem resetWith_inv {cfg : Config} (hcfg : cfg.wf) (inputs : List PortInput) (responses : List Response) :
    (State.resetWith cfg inputs responses).Inv :=
  ⟨hcfg, wf_nil, nofun, Nat.zero_le _, rfl, by simp, by simp, nofun⟩

/-- A rejection records a code from 1 to 5, or keeps the one that is there (R35). -/
theorem rejectedWith_inv {s : State} (h : s.Inv) (e : ErrorKind) : (rejectedWith (errorCode e) s).Inv where
  config := h.config
  bufWf := h.bufWf
  bufBound := h.bufBound
  bufLen := h.bufLen
  table := h.table
  record := by
    show true = false ↔ (if s.err = false then errorCode e else s.errCode) = 0#4
    split
    · simp [errorCode_ne_zero]
    · next herr => simpa [herr] using h.record
  code := by
    show (if s.err = false then errorCode e else s.errCode).toNat ≤ 5
    split
    · exact errorCode_le e
    · exact h.code
  final := h.final

/-- A write of consecutive bytes below BUF_SIZE keeps the buffer's form and its bound (R32). -/
theorem writeBytes_inv {s : State} (h : s.Inv) {a : Nat} {bs : List Byte} (hle : a + bs.length ≤ s.bufSize) :
    { s with buf := s.buf.writeBytes a bs }.Inv :=
  { h with
    bufWf := wf_writeBytes h.bufWf a bs
    bufBound := fun c hc => by
      rcases mem_writeBytes hc with hnew | hold
      · exact hnew.2.trans_le hle
      · exact h.bufBound c hold }

/-- The effect of a command that is not rejected keeps the invariant. -/
theorem effect_inv {s : State} (h : s.Inv) {i : Instr} (hr : rejection s i = none) : (effect s i).Inv := by
  cases i with
  | nop | readReg idx | readBuf a => exact h
  | setPoly p | setSeed v => exact { h with }
  | buildTable => exact { h with table := rfl }
  | reset => exact { h with final := nofun }
  | updateImm nm1 v => exact { h with final := nofun }
  | updateBuf off len =>
    have hphase : s.phase ≠ .final := fun hp => by simp [rejection, hp] at hr
    refine { h with final := fun hp => absurd hp ?_ }
    show (if len.toNat > 0 then Phase.active else s.phase) ≠ .final
    split
    · decide
    · exact hphase
  | finalize => exact { h with final := fun _ => rfl }
  | writeBuf a b =>
    refine writeBytes_inv h ?_
    simpa [rejection] using hr
  | writeBuf4 a w =>
    refine writeBytes_inv h ?_
    simpa [rejection] using hr
  | setBufLen l =>
    have hl : l.toNat ≤ s.bufSize := by simpa [rejection] using hr
    refine { h with bufLen := ?_ }
    show (l.setWidth 16).toNat ≤ s.bufSize
    rw [BitVec.toNat_setWidth]
    exact (Nat.mod_le _ _).trans hl
  | clearErr => exact { h with record := by simp [effect], code := by simp [effect] }

/-- Settles O42: idle, reset, rejection and effect each keep the invariant. -/
theorem stepKeepsTheInvariant : Obligations.StepKeepsTheInvariant := by
  intro s t hinv hstep
  rcases step_cases s with ⟨_, hs⟩ | ⟨f, rest, _, hs⟩ | ⟨c, rest, hin, _⟩
  · cases hs.symm.trans hstep
    exact hinv
  · cases hs.symm.trans hstep
    exact resetWith_inv hinv.config _ _
  · rcases step_command_next hin hstep with ⟨e, _, rfl⟩ | ⟨i, _, hr, rfl⟩
    · exact rejectedWith_inv (withPort_inv hinv rest s.responses) e
    · exact withPort_inv (effect_inv hinv hr) _ _


/-! ## What each effect leaves as it was -/

section Writers

variable {s : State} {i : Instr}

/-- The error record is cleared by `clear_err`, and no other effect writes it (R35, R181). -/
theorem effect_record (h : i ≠ .clearErr) : (effect s i).err = s.err ∧ (effect s i).errCode = s.errCode := by
  cases i with
  | clearErr => exact absurd rfl h
  | _ => exact ⟨rfl, rfl⟩

theorem setPoly_of_effect_poly_ne (h : (effect s i).poly ≠ s.poly) : ∃ p, i = .setPoly p := by
  cases i with
  | setPoly p => exact ⟨p, rfl⟩
  | _ => exact absurd rfl h

theorem setSeed_of_effect_seed_ne (h : (effect s i).seed ≠ s.seed) : ∃ v, i = .setSeed v := by
  cases i with
  | setSeed v => exact ⟨v, rfl⟩
  | _ => exact absurd rfl h

theorem finalize_of_effect_result_ne (h : (effect s i).result ≠ s.result) : i = .finalize := by
  cases i with
  | finalize => rfl
  | _ => exact absurd rfl h

theorem buildTable_of_effect_table_ne (h : (effect s i).table ≠ s.table ∨ (effect s i).tblPoly ≠ s.tblPoly) :
    i = .buildTable := by
  cases i with
  | buildTable => rfl
  | _ => exact h.elim (absurd rfl) (absurd rfl)

theorem write_of_effect_buf_ne (h : (effect s i).buf ≠ s.buf) :
    ∃ a, (∃ b, i = .writeBuf a b) ∨ ∃ w, i = .writeBuf4 a w := by
  cases i with
  | writeBuf a b => exact ⟨a, .inl ⟨b, rfl⟩⟩
  | writeBuf4 a w => exact ⟨a, .inr ⟨w, rfl⟩⟩
  | _ => exact absurd rfl h

theorem setBufLen_of_effect_bufLen_ne (h : (effect s i).bufLen ≠ s.bufLen) : ∃ l, i = .setBufLen l := by
  cases i with
  | setBufLen l => exact ⟨l, rfl⟩
  | _ => exact absurd rfl h

/-- PHASE is written by `reset`, `finalize` and the updates (R28). -/
theorem effect_phase_of_not_writer (hreset : i ≠ .reset) (hfinal : i ≠ .finalize) (hupdate : i.isUpdate = false) :
    (effect s i).phase = s.phase := by
  cases i with
  | reset => exact absurd rfl hreset
  | finalize => exact absurd rfl hfinal
  | updateImm nm1 v | updateBuf off len => cases hupdate
  | _ => rfl

/-- CRC is written by `reset` and the updates (R25). -/
theorem effect_crc_of_not_writer (hreset : i ≠ .reset) (hupdate : i.isUpdate = false) :
    (effect s i).crc = s.crc := by
  cases i with
  | reset => exact absurd rfl hreset
  | updateImm nm1 v | updateBuf off len => cases hupdate
  | _ => rfl

/-- An update folds its bytes into CRC (R134, R135). -/
theorem effect_crc_of_isUpdate (h : i.isUpdate = true) :
    (effect s i).crc = foldAll s.table s.crc (i.updateData s.buf) := by
  cases i with
  | updateImm nm1 v => rfl
  | updateBuf off len => exact congrArg (foldAll s.table s.crc) (readBytes_eq s.buf off.toNat len.toNat)
  | _ => cases h

/-- An update writes CRC and PHASE alone, and its DATA is 0 (R138). -/
theorem effect_of_isUpdate (h : i.isUpdate = true) :
    effect s i = { s with crc := (effect s i).crc, phase := (effect s i).phase } ∧ answer s i = 0#32 := by
  cases i with
  | updateImm nm1 v | updateBuf off len => exact ⟨rfl, rfl⟩
  | _ => cases h

end Writers

/-! ## The error record -/

/-- Hardware reset gives every element its reset value (R250). -/
theorem step_of_hardwareReset {s : State} {f : Option Command} {rest : List PortInput}
    (h : s.inputs = .hardwareReset f :: rest) : step s = .next (State.resetWith s.cfg rest s.responses) := by
  rw [step, h]
  rfl

/-- Settles O40: a rejection records its code, and of the effects `clear_err` alone writes the record. -/
theorem errorRecordKeepsTheFirstCode : Obligations.ErrorRecordKeepsTheFirstCode := by
  constructor
  · intro s t c rest r hinv hin hstep hresp
    have hrecord := (stepKeepsTheInvariant s t hinv hstep).record
    rcases step_command_next hin hstep with ⟨e, _, rfl⟩ | ⟨i, hd, _, rfl⟩
    · obtain rfl : ⟨errorCode e, 0#32⟩ = r := by simpa using hresp
      exact ⟨fun _ => ⟨rfl, rfl⟩, fun hok => absurd hok (errorCode_ne_zero e),
        fun hok => absurd hok (errorCode_ne_zero e), hrecord⟩
    · obtain rfl : ⟨0#4, answer s i⟩ = r := by simpa using hresp
      refine ⟨fun hne => absurd rfl hne, fun _ hclear => ?_, fun _ hother => ?_, hrecord⟩
      · cases hd.symm.trans hclear
        exact ⟨rfl, rfl⟩
      · exact effect_record fun hi => hother (hi ▸ hd)
  · intro s t f rest hin hstep
    cases (step_of_hardwareReset hin).symm.trans hstep
    exact ⟨rfl, rfl⟩

/-! ## PHASE -/

section Phase

variable {s : State}

/-- `update_imm` is refused in FINAL alone (R134). -/
theorem rejection_updateImm_eq_none_iff (nm1 : BitVec 2) (v : Word) :
    rejection s (.updateImm nm1 v) = none ↔ s.phase ≠ .final := by
  simp [rejection]

/-- `update_buf` is refused in FINAL and beyond BUF_LEN (R135). -/
theorem rejection_updateBuf_eq_none_iff (off : Half) (len : Word) :
    rejection s (.updateBuf off len) = none ↔ s.phase ≠ .final ∧ off.toNat + len.toNat ≤ s.bufLen.toNat := by
  by_cases hp : s.phase = .final
  · simp [rejection, hp]
  · simp [rejection, hp]

/-- An effect that leaves PHASE at OPEN, short of `reset`, found it there and folded no byte (R28). -/
theorem effect_of_phase_opened {i : Instr} (h : (effect s i).phase = .opened) (hreset : i ≠ .reset) :
    s.phase = .opened ∧ (effect s i).crc = s.crc := by
  cases i with
  | reset => exact absurd rfl hreset
  | finalize | updateImm nm1 v => cases h
  | updateBuf off len =>
    replace h : (if len.toNat > 0 then Phase.active else s.phase) = .opened := h
    split at h
    · cases h
    · next hlen =>
      have hzero : len.toNat = 0 := by omega
      exact ⟨h, by simp [effect, hzero, Memory.readBytes]⟩
  | _ => exact ⟨h, rfl⟩

/-- A rejected command is neither `reset` nor `finalize`, and an update is rejected outside the condition of its row
alone (R28, R134, R135). -/
theorem phase_rows_of_rejection {c : Command} {e : ErrorKind}
    (hrej : ∀ i, decode c = .ok i → rejection s i = some e) :
    decode c ≠ .ok .reset ∧ decode c ≠ .ok .finalize ∧
    (∀ nm1 v, decode c = .ok (.updateImm nm1 v) → s.phase = .final) ∧
    (∀ off len, decode c = .ok (.updateBuf off len) →
      ¬ (s.phase ≠ .final ∧ 0 < len.toNat ∧ off.toNat + len.toNat ≤ s.bufLen.toNat)) := by
  refine ⟨fun hd => (by cases hrej _ hd), fun hd => (by cases hrej _ hd), fun nm1 v hd => ?_,
    fun off len hd hok => ?_⟩
  · by_contra hp
    cases ((rejection_updateImm_eq_none_iff nm1 v).2 hp).symm.trans (hrej _ hd)
  · cases ((rejection_updateBuf_eq_none_iff off len).2 ⟨hok.1, hok.2.2⟩).symm.trans (hrej _ hd)

end Phase

/-- Settles O44: by the row of the event; a command that is rejected moves nothing, and one that is not has its
effect. -/
theorem phaseMovesAsItsTableSays : Obligations.PhaseMovesAsItsTableSays := by
  intro s t hstep
  refine ⟨fun hin => ?_, fun f rest hin => ?_, fun c rest hin => ?_⟩
  · have hidle : step s = .next s := by rw [step, hin]
    cases hidle.symm.trans hstep
    rfl
  · cases (step_of_hardwareReset hin).symm.trans hstep
    exact ⟨rfl, rfl⟩
  · rcases step_command_next hin hstep with ⟨e, hrej, rfl⟩ | ⟨i, hd, hr, rfl⟩
    · obtain ⟨hreset, hfinal, himm, hbuf⟩ := phase_rows_of_rejection hrej
      refine ⟨fun h => absurd h hreset, fun h => absurd h hfinal, fun nm1 v h => ?_, fun off len h => ?_,
        fun _ => rfl, fun hopen _ => ⟨hopen, rfl⟩⟩
      · rw [if_pos (himm nm1 v h)]
        exact himm nm1 v h
      · rw [if_neg (hbuf off len h)]
        rfl
    · simp only [hd, Except.ok.injEq, ne_eq]
      refine ⟨?_, ?_, ?_, ?_, fun h => ?_, fun hopen hreset => effect_of_phase_opened hopen hreset⟩
      · rintro rfl
        exact ⟨rfl, rfl⟩
      · rintro rfl
        rfl
      · rintro nm1 v rfl
        rw [if_neg ((rejection_updateImm_eq_none_iff nm1 v).1 hr)]
        rfl
      · rintro off len rfl
        obtain ⟨hphase, hrange⟩ := (rejection_updateBuf_eq_none_iff off len).1 hr
        simp [effect, hphase, hrange]
      · obtain ⟨hreset, hfinal, hupdate⟩ := h i rfl
        exact effect_phase_of_not_writer hreset hfinal hupdate

/-! ## The writers of each element -/

/-- An effect that changes CRC is that of `reset`, or of an update with at least one byte (R28, R138). -/
theorem writer_of_effect_crc_ne {s : State} {i : Instr} (h : (effect s i).crc ≠ s.crc) :
    i = .reset ∨ (i.isUpdate = true ∧ i.updateData s.buf ≠ []) := by
  by_cases hreset : i = .reset
  · exact .inl hreset
  · cases hupdate : i.isUpdate with
    | false => exact absurd (effect_crc_of_not_writer hreset hupdate) h
    | true => exact .inr ⟨rfl, fun hnil => h (by rw [effect_crc_of_isUpdate hupdate, hnil, foldAll_nil])⟩

theorem writer_of_effect_phase_ne {s : State} {i : Instr} (h : (effect s i).phase ≠ s.phase) :
    i = .reset ∨ i = .finalize ∨ i.isUpdate = true := by
  by_contra hnone
  simp only [not_or, Bool.not_eq_true] at hnone
  obtain ⟨hreset, hfinal, hupdate⟩ := hnone
  exact h (effect_phase_of_not_writer hreset hfinal hupdate)

/-- Settles O45: a rejection changes the error record alone, and an effect the elements of its command. -/
theorem eachElementHasItsOwnWriters : Obligations.EachElementHasItsOwnWriters := by
  intro s t c rest hin hstep
  rcases step_command_next hin hstep with ⟨e, _, rfl⟩ | ⟨i, hd, _, rfl⟩
  · exact ⟨rfl, absurd rfl, absurd rfl, absurd rfl, absurd rfl, absurd rfl, fun h => h.elim (absurd rfl) (absurd rfl),
      absurd rfl, absurd rfl, fun _ => .inr ⟨errorCode e, errorCode_ne_zero e, rfl⟩⟩
  · simp only [hd, Except.ok.injEq]
    refine ⟨effect_keeps_cfg s i, setPoly_of_effect_poly_ne, setSeed_of_effect_seed_ne, fun h => ?_,
      finalize_of_effect_result_ne, fun h => ?_, buildTable_of_effect_table_ne, write_of_effect_buf_ne,
      setBufLen_of_effect_bufLen_ne, fun h => ?_⟩
    · refine (writer_of_effect_crc_ne h).imp_right fun ⟨hupdate, hdata⟩ => ?_
      obtain ⟨hframe, hanswer⟩ := effect_of_isUpdate (s := s) hupdate
      refine ⟨i, rfl, hupdate, hdata, by rw [hanswer]; rfl, ?_⟩
      rw [hframe]
    · exact (writer_of_effect_phase_ne h).imp_right (Or.imp_right fun hupdate => ⟨i, rfl, hupdate⟩)
    · by_contra hnone
      obtain ⟨herr, hcode⟩ := effect_record (s := s) (not_or.1 hnone).1
      exact h.elim (· herr) (· hcode)

/-! ## read_reg -/

/-- A CMD word from its opcode and immediate is the two in their places (R81). -/
theorem cmdWord_eq_or (opc : Byte) (imm : Half) :
    cmdWord opc imm = cmdWord opc 0#16 ||| imm.setWidth 32 := by
  refine BitVec.eq_of_getLsbD_eq fun k hk => ?_
  simp only [cmdWord, BitVec.getLsbD_or, BitVec.getLsbD_append, BitVec.getLsbD_setWidth, hk, decide_true,
    Bool.true_and]
  by_cases hlow : k < 16
  · simp [hlow]
  · simp [hlow, BitVec.getLsbD_of_ge imm k (by omega)]

/-- A mapped index is answered with its value (R180). -/
theorem exec_readReg_of_some {s : State} {idx : Half} {v : Word} (h : s.readIndex idx = some v) :
    exec (.readReg idx) s = .next (answeredOk v s) := by
  have hr : rejection s (.readReg idx) = none := by simp [rejection, h]
  have hd : answer s (.readReg idx) = v := by simp [answer, h]
  rw [exec_eq, hr, ← hd]
  rfl

/-- An unmapped index is refused with BADREG (R180). -/
theorem exec_readReg_of_unmapped {s : State} {idx : Half} (h : ¬ mappedIndex idx) :
    exec (.readReg idx) s = .next (rejectedWith 5#4 s) := by
  have hr : rejection s (.readReg idx) = some .badReg := if_pos ((readIndex_none_iff s idx).2 h)
  rw [exec_eq, hr]
  exact reject_eq_rejectedWith .badReg s

/-- Settles O33: by the register index map. -/
theorem readRegAnswersTheIndexMap : Obligations.ReadRegAnswersTheIndexMap := by
  refine ⟨fun idx arg => ?_, onlyLegalWords_of fun c i hd _ => (decode_ok hd).1, fun s => ?_, fun i s hinv => ?_,
    fun idx s hidx => ?_⟩
  · have hword : 0x0B000000#32 ||| idx.setWidth 32 = cmdWord 0x0B#8 idx := (cmdWord_eq_or 0x0B#8 idx).symm
    rw [hword, decode_cmdWord]
    rfl
  · refine ⟨?_, ?_, ?_, ?_, ?_, ?_, ?_, ?_, ?_, ?_, ?_, ?_, fun i => exec_readReg_of_some (readIndex_table s i)⟩
    all_goals exact exec_readReg_of_some rfl
  · rw [← tableAt_tableOf, ← hinv.table]
    exact exec_readReg_of_some (readIndex_table s i)
  · refine exec_readReg_of_unmapped fun hmapped => ?_
    unfold mappedIndex at hmapped
    omega

/-! ## STATUS -/

/-- The fields of STATUS, from the least significant up: each is one part of the concatenation (R34). -/
theorem statusView_fields (s : State) :
    s.statusView.extractLsb' 0 2 = phaseCode s.phase ∧ s.statusView.getLsbD 2 = s.err ∧
    s.statusView.getLsbD 3 = false ∧ s.statusView.extractLsb' 4 4 = s.errCode ∧
    s.statusView.extractLsb' 8 24 = 0#24 := by
  unfold State.statusView
  refine ⟨?_, ?_, ?_, ?_, ?_⟩
  · rw [BitVec.extractLsb'_append_eq_of_add_le (by decide), BitVec.extractLsb'_eq_self]
  · simp only [BitVec.getLsbD_append]
    simp
  · simp only [BitVec.getLsbD_append]
    simp
  · rw [BitVec.extractLsb'_append_eq_of_le (by decide), BitVec.extractLsb'_append_eq_of_le (by decide),
      BitVec.extractLsb'_append_eq_of_le (by decide), BitVec.extractLsb'_append_eq_of_add_le (by decide),
      BitVec.extractLsb'_eq_self]
  · rw [BitVec.extractLsb'_append_eq_of_le (by decide), BitVec.extractLsb'_append_eq_of_le (by decide),
      BitVec.extractLsb'_append_eq_of_le (by decide), BitVec.extractLsb'_append_eq_of_le (by decide),
      BitVec.extractLsb'_eq_self]

/-- Settles O34: index 0x0008 answers STATUS. -/
theorem statusShowsPhaseAndErrorRecord : Obligations.StatusShowsPhaseAndErrorRecord := by
  intro s
  obtain ⟨hphase, hrest⟩ := statusView_fields s
  refine ⟨s.statusView, exec_readReg_of_some rfl, ?_, hrest⟩
  rw [hphase]
  cases s.phase <;> rfl

end Sys2Proof.Machine

/-! PROOFS. The statements of 20_memory.md: the fold as bit-serial division (R53), the four-byte write and its read-back
(R55), reads and repeated commands (R60), the host binding (R61) and the order of the port (R63). -/

namespace Sys2Proof.Machine

/-! ## The table-driven fold -/

/-- k iterations of the builder on a register whose low k bits are zero are a plain shift (R110). -/
theorem entrySteps_of_low_zero (P : Word) {k : Nat} {c : Word} (h : ∀ j < k, c.getLsbD j = false) :
    entrySteps P k c = c >>> k := by
  induction k generalizing c with
  | zero => simp [entrySteps]
  | succ k ih =>
    have hstep : entryStep P c = c >>> 1 := by simp only [entryStep, h 0 k.succ_pos, Bool.false_eq_true, if_false]
    have hlow : ∀ j < k, (c >>> 1).getLsbD j = false := fun j hj => by
      rw [BitVec.getLsbD_ushiftRight]
      exact h (1 + j) (by omega)
    rw [entrySteps, hstep, ih hlow, ← BitVec.shiftRight_add, Nat.add_comm]

/-- The register with the byte in its low bits is its high 24 bits and the table index of the fold, side by side. -/
theorem xor_byte_eq (c : Word) (b : Byte) :
    c ^^^ b.setWidth 32 = (c >>> 8 <<< 8) ^^^ (b ^^^ c.setWidth 8).setWidth 32 := by
  refine BitVec.eq_of_getLsbD_eq fun k hk => ?_
  by_cases hlow : k < 8
  · simp [hlow, hk, Bool.xor_comm]
  · have hsum : 8 + (k - 8) = k := by omega
    simp [hlow, hk, hsum, BitVec.getLsbD_of_ge b k (by omega)]

/-- Folding a byte is eight iterations of the builder on the register with the byte in its low bits (R53, R110). -/
theorem fold_tableOf (P c : Word) (b : Byte) : fold (tableOf P) c b = entrySteps P 8 (c ^^^ b.setWidth 32) := by
  have hlow : ∀ j < 8, (c >>> 8 <<< 8).getLsbD j = false := fun j hj => by simp [hj]
  have hback : c >>> 8 <<< 8 >>> 8 = c >>> 8 := by
    refine BitVec.eq_of_getLsbD_eq fun k hk => ?_
    by_cases h : 8 + k < 32
    · simp [h]
    · simp [h, BitVec.getLsbD_of_ge c (8 + k) (by omega)]
  rw [fold_eq, tableAt_tableOf, xor_byte_eq, entrySteps_xor, entrySteps_of_low_zero P hlow, hback, entry]

/-- A byte equal to the register's low byte is a plain shift (R134). -/
theorem fold_low_byte (P c : Word) : fold (tableOf P) c (c.setWidth 8) = c >>> 8 := by
  have hentry : entry P 0#8 = 0#32 := by
    rw [entry, entrySteps_of_low_zero P (by simp)]
    simp
  rw [fold_eq, BitVec.xor_self, tableAt_tableOf, hentry, BitVec.xor_zero]

/-- Settles O20: byte by byte, by the linearity of the builder's iteration. -/
theorem tableFoldIsBitSerialDivision : Obligations.TableFoldIsBitSerialDivision := by
  refine ⟨fold_tableOf, fun P c s => ?_⟩
  induction s generalizing c with
  | nil => rfl
  | cons b s ih => rw [foldAll_cons, ih, fold_tableOf, List.foldl_cons]

/-! ## What a command's meaning answers -/

section Meaning

variable {s : State} {i : Instr}

theorem exec_of_rejection {e : ErrorKind} (h : rejection s i = some e) :
    exec i s = .next (rejectedWith (errorCode e) s) := by
  rw [exec_eq, h]
  exact reject_eq_rejectedWith e s

theorem exec_of_effect (hr : rejection s i = none) (hh : reachesHole s i = false) :
    exec i s = .next (answeredOk (answer s i) (effect s i)) := by
  rw [exec_eq, hr, hh]
  rfl

theorem perform_of_decode {c : Command} (h : decode c = .ok i) (s : State) : perform c s = exec i s := by
  rw [perform, h]

end Meaning

/-- Settles O4: the step takes the command and performs what it decodes to. -/
theorem stepPerformsTheDecodedCommand : Obligations.StepPerformsTheDecodedCommand := by
  intro s c rest i hin hd
  rw [step_of_command hin, perform_of_decode hd]
  rfl

/-! ## What no meaning reads -/

/-- s with other values of the three parts that no meaning reads: the host binding (R61), what is offered to the port
after the command (R63), and the responses already given (log 2). -/
def State.mapUnread (f : HostBinding → HostBinding) (g : List PortInput → List PortInput)
    (h : List Response → List Response) (s : State) : State :=
  { s with
    cfg := { s.cfg with hostBinding := f s.cfg.hostBinding }
    inputs := g s.inputs
    responses := h s.responses }

section Unread

variable (f : HostBinding → HostBinding) (g : List PortInput → List PortInput) (h : List Response → List Response)
  (s : State)

@[simp] theorem rejection_mapUnread (i : Instr) : rejection (s.mapUnread f g h) i = rejection s i := by
  cases i <;> rfl

@[simp] theorem reachesHole_mapUnread (i : Instr) : reachesHole (s.mapUnread f g h) i = reachesHole s i := by
  cases i <;> rfl

@[simp] theorem answer_mapUnread (i : Instr) : answer (s.mapUnread f g h) i = answer s i := by
  cases i <;> rfl

@[simp] theorem effect_mapUnread (i : Instr) : effect (s.mapUnread f g h) i = (effect s i).mapUnread f g h := by
  cases i <;> rfl

theorem answeredOk_eq_mapUnread (d : Word) : answeredOk d s = s.mapUnread id id (· ++ [⟨0#4, d⟩]) := rfl

variable {s} {t : State}

/-- A command's meaning leaves the host binding and the port as it finds them, and does the same whatever they are. -/
theorem exec_mapUnread {i : Instr} (hexec : exec i s = .next t) :
    exec i (s.mapUnread f g id) = .next (t.mapUnread f g id) := by
  rcases exec_next hexec with ⟨e, hr, rfl⟩ | ⟨hr, hh, rfl⟩
  · exact exec_of_rejection ((rejection_mapUnread f g id s i).trans hr)
  · rw [exec_of_effect (by simpa using hr) (by simpa using hh), answer_mapUnread, effect_mapUnread]
    rfl

theorem perform_mapUnread {c : Command} (hperform : perform c s = .next t) :
    perform c (s.mapUnread f g id) = .next (t.mapUnread f g id) := by
  rcases perform_next hperform with ⟨why, hd, rfl⟩ | ⟨i, hd, hexec⟩
  · exact perform_illegal hd _
  · rw [perform_of_decode hd]
    exact exec_mapUnread f g hexec

end Unread

/-- With nothing offered the block is idle (R233). -/
theorem step_of_idle {s : State} (h : s.inputs = []) : step s = .next s := by
  rw [step, h]

/-- A step carries the host binding along: it keeps it in an idle step and in a reset, and no meaning reads it. -/
theorem step_mapUnread_hostBinding (f : HostBinding → HostBinding) {s t : State} (hstep : step s = .next t) :
    step (s.mapUnread f id id) = .next (t.mapUnread f id id) := by
  rcases step_cases s with ⟨hin, hs⟩ | ⟨_, rest, hin, hs⟩ | ⟨c, rest, hin, hs⟩
  · cases hs.symm.trans hstep
    exact step_of_idle hin
  · cases hs.symm.trans hstep
    exact step_of_hardwareReset hin
  · exact (step_of_command (s := s.mapUnread f id id) hin).trans (perform_mapUnread f id (hs.symm.trans hstep))

/-- Settles O46: the step carries any binding along. -/
theorem hostBindingIsNeverRead : Obligations.HostBindingIsNeverRead :=
  fun _ _ b hstep => step_mapUnread_hostBinding (fun _ => b) hstep

/-! ## The order of the port -/

/-- A step takes the first entry alone, and does the same whatever is offered after the others. -/
theorem step_cons_append {x : PortInput} {xs : List PortInput} {s u : State}
    (h : step { s with inputs := x :: xs } = .next u) (ys : List PortInput) :
    u.inputs = xs ∧ step { s with inputs := x :: xs ++ ys } = .next { u with inputs := u.inputs ++ ys } := by
  cases x with
  | hardwareReset f =>
    cases (step_of_hardwareReset rfl).symm.trans h
    exact ⟨rfl, rfl⟩
  | command c =>
    refine ⟨?_, perform_mapUnread id (· ++ ys) h⟩
    rcases step_command_next rfl h with ⟨e, _, rfl⟩ | ⟨i, _, _, rfl⟩ <;> rfl

/-- A run over the entries xs takes them all, and is the same run whatever is offered after them (R63). -/
theorem run_append {xs : List PortInput} {s t : State} (h : run xs.length { s with inputs := xs } = .next t)
    (ys : List PortInput) :
    t.inputs = [] ∧ run xs.length { s with inputs := xs ++ ys } = .next { t with inputs := ys } := by
  induction xs generalizing s with
  | nil =>
    cases h
    exact ⟨rfl, rfl⟩
  | cons x xs ih =>
    obtain ⟨u, hstep, hrun⟩ := step_of_run h
    obtain ⟨rfl, hstep'⟩ := step_cons_append hstep ys
    obtain ⟨hnil, hrun'⟩ := ih hrun
    exact ⟨hnil, (run_succ _ hstep').trans hrun'⟩

/-- Settles O6: by induction on the entries taken, and then the rest of the run goes on from there. -/
theorem commandsTakeEffectInOrder : Obligations.CommandsTakeEffectInOrder := by
  intro xs ys s t h
  obtain ⟨hnil, hrun⟩ := run_append h ys
  exact ⟨hnil, hrun, run_add _ _ hrun⟩

/-! ## The four-byte write -/

/-- Consecutive bytes written read back in the same order. -/
theorem readBytes_writeBytes {m : Memory} (hm : m.wf) (a : Nat) (bs : List Byte) :
    (m.writeBytes a bs).readBytes a bs.length = bs := by
  refine List.ext_getElem (length_readBytes ..) fun j _ hj => ?_
  simp [readBytes_eq, readByte_writeBytes hm, hj]

/-- `read_buf` below BUF_SIZE answers the byte and changes nothing else (R179). -/
theorem exec_readBuf_of_lt {s : State} {a : Half} (h : a.toNat < s.bufSize) :
    exec (.readBuf a) s = .next (answeredOk ((s.buf.readByte a.toNat).setWidth 32) s) :=
  exec_of_effect (if_neg (by omega)) rfl

/-- Folding from the buffer the bytes that `update_imm` has in its operand is the same command (R53, R55). -/
theorem exec_updateBuf_eq_updateImm {s : State} {off : Half} {len : Word} {nm1 : BitVec 2} {v : Word}
    (hlen : len.toNat = byteCount nm1) (hrange : off.toNat + len.toNat ≤ s.bufLen.toNat)
    (hsize : off.toNat + len.toNat ≤ s.bufSize)
    (hbytes : s.buf.readBytes off.toNat len.toNat = bytesOf (byteCount nm1) v) :
    exec (.updateBuf off len) s = exec (.updateImm nm1 v) s := by
  by_cases hp : s.phase = .final
  · rw [exec_of_rejection (i := .updateBuf off len) (if_pos hp), exec_of_rejection (i := .updateImm nm1 v) (if_pos hp)]
  · have hpos : len.toNat > 0 := hlen ▸ Nat.succ_pos _
    have heffect : effect s (.updateBuf off len) = effect s (.updateImm nm1 v) := by
      simp only [effect, hbytes, if_pos hpos]
    rw [exec_of_effect ((rejection_updateBuf_eq_none_iff off len).2 ⟨hp, hrange⟩)
        (decide_eq_false (Nat.not_lt.2 hsize)),
      exec_of_effect ((rejection_updateImm_eq_none_iff nm1 v).2 hp) rfl, heffect]
    rfl

/-- Settles O36: the buffer after the write holds the bytes of V from A on, and both claims read them there. -/
theorem fourByteWriteReadsBackByteByByte : Obligations.FourByteWriteReadsBackByteByByte := by
  intro a v s t hinv hsize hexec
  have hr : rejection s (.writeBuf4 a v) = none := if_neg (by omega)
  cases (exec_of_effect hr rfl).symm.trans hexec
  refine ⟨fun j hj => ?_, fun hlen => ?_⟩
  · have haddr : (a + BitVec.ofNat 16 j).toNat = a.toNat + j := by
      have hbound : s.bufSize < 2 ^ 16 := s.cfg.bufSize.isLt
      rw [BitVec.toNat_add, BitVec.toNat_ofNat, Nat.mod_eq_of_lt (by omega : j < 2 ^ 16), Nat.mod_eq_of_lt (by omega)]
    refine (exec_readBuf_of_lt (haddr ▸ (by omega : a.toNat + j < s.bufSize))).trans ?_
    have hbyte : (s.buf.writeBytes a.toNat (bytesOf 4 v)).readByte (a.toNat + j) = byteOf v j := by
      simp [readByte_writeBytes hinv.bufWf, hj, bytesOf]
    rw [haddr]
    exact congrArg (fun b : Byte => Host.Outcome.next (answeredOk (b.setWidth 32) _)) hbyte
  · exact exec_updateBuf_eq_updateImm rfl hlen hsize (readBytes_writeBytes hinv.bufWf a.toNat (bytesOf 4 v))

/-! ## Commands issued twice -/

section Twice

variable {s t : State} {i : Instr}

/-- The error record has no part in what a command is rejected for (R227). -/
theorem rejection_rejectedWith (k : Nibble) : rejection (rejectedWith k s) i = rejection s i := by
  cases i with
  | readReg idx =>
    have hmap : (rejectedWith k s).readIndex idx = none ↔ s.readIndex idx = none :=
      (readIndex_none_iff _ idx).trans (readIndex_none_iff s idx).symm
    simp only [rejection, hmap]
  | _ => rfl

/-- A command that is performed is not rejected when it is issued again at once. -/
theorem rejection_effect (h : rejection s i = none) : rejection (effect s i) i = none := by
  cases i with
  | buildTable => exact if_neg fun hne => hne.2 rfl
  | updateImm nm1 v => rfl
  | updateBuf off len =>
    obtain ⟨hphase, hrange⟩ := (rejection_updateBuf_eq_none_iff off len).1 h
    refine (rejection_updateBuf_eq_none_iff off len).2 ⟨?_, hrange⟩
    show (if len.toNat > 0 then Phase.active else s.phase) ≠ .final
    split
    · decide
    · exact hphase
  | _ => exact h

theorem reachesHole_effect (j : Instr) (h : reachesHole s j = false) : reachesHole (effect s i) j = false := by
  cases j with
  | updateBuf off len =>
    simpa [reachesHole, State.bufSize] using h
  | _ => rfl

/-- The effect of every command but the updates is idempotent (R60). -/
theorem effect_twice (hwf : s.buf.wf) (h : i.isUpdate = false) : effect (effect s i) i = effect s i := by
  cases i with
  | updateImm nm1 v | updateBuf off len => cases h
  | writeBuf a b =>
    exact congrArg (fun m => { s with buf := m }) (writeBytes_twice hwf a.toNat (bytesOf 1 (b.setWidth 32)))
  | writeBuf4 a w => exact congrArg (fun m => { s with buf := m }) (writeBytes_twice hwf a.toNat (bytesOf 4 w))
  | _ => rfl

/-- A command that is rejected is rejected again with the same code, and the record stays that of the first time
(R35). -/
theorem exec_again_of_rejection {e : ErrorKind} (h : rejection s i = some e) :
    exec i (rejectedWith (errorCode e) s) = .next { rejectedWith (errorCode e) s with
      responses := (rejectedWith (errorCode e) s).responses ++ [⟨errorCode e, 0#32⟩] } :=
  exec_of_rejection ((rejection_rejectedWith _).trans h)

/-- A command that is performed is performed again, on the state its effect left. -/
theorem exec_again_of_effect (hr : rejection s i = none) (hh : reachesHole s i = false) (d : Word) :
    exec i (answeredOk d (effect s i)) =
      .next (answeredOk (answer (effect s i) i) (answeredOk d (effect (effect s i) i))) := by
  have hr' := rejection_effect hr
  have hh' := reachesHole_effect (i := i) i hh
  simp only [answeredOk_eq_mapUnread (effect _ _)]
  rw [exec_of_effect (by simpa using hr') (by simpa using hh'), answer_mapUnread, effect_mapUnread]

/-- The reads have no side effect (R60). -/
theorem effect_of_isRead {a : Half} (h : i = .readReg a ∨ i = .readBuf a) : effect s i = s := by
  rcases h with rfl | rfl <;> rfl

/-- An update that is performed again folds its bytes again, with the same table (R60). -/
theorem effect_twice_crc_of_isUpdate (h : i.isUpdate = true) :
    (effect (effect s i) i).crc = foldAll s.table (effect s i).crc (i.updateData s.buf) := by
  rw [effect_crc_of_isUpdate h, (effect_of_isUpdate h).1]

/-- A read answers the same twice; what it is rejected with is all it can change (R60). -/
theorem read_twice {a : Half} (hread : i = .readReg a ∨ i = .readBuf a) (hexec : exec i s = .next t) :
    ∃ r : Response, t.responses = s.responses ++ [r] ∧
      (r.status = 0#4 → t = { s with responses := t.responses }) ∧
      (r.status ≠ 0#4 → t = { s with err := t.err, errCode := t.errCode, responses := t.responses }) ∧
      ∃ u : State, exec i t = .next u ∧ u.responses = t.responses ++ [r] := by
  rcases exec_next hexec with ⟨e, hr, rfl⟩ | ⟨hr, hh, rfl⟩
  · exact ⟨⟨errorCode e, 0#32⟩, rfl, fun hok => absurd hok (errorCode_ne_zero e), fun _ => rfl, _,
      exec_again_of_rejection hr, rfl⟩
  · have hagain := exec_again_of_effect hr hh (answer s i)
    rw [effect_of_isRead hread, effect_of_isRead hread] at hagain
    rw [effect_of_isRead hread]
    exact ⟨⟨0#4, answer s i⟩, rfl, fun _ => rfl, fun hne => absurd rfl hne, _, hagain, rfl⟩

/-- Every command but the updates leaves the same state when it is issued twice, the responses apart (R60). -/
theorem not_update_twice (hwf : s.buf.wf) (hupdate : i.isUpdate = false) (hexec : exec i s = .next t) :
    ∃ u : State, exec i t = .next u ∧ u = { t with responses := u.responses } := by
  rcases exec_next hexec with ⟨e, hr, rfl⟩ | ⟨hr, hh, rfl⟩
  · exact ⟨_, exec_again_of_rejection hr, rfl⟩
  · have hagain := exec_again_of_effect hr hh (answer s i)
    rw [effect_twice hwf hupdate] at hagain
    exact ⟨_, hagain, rfl⟩

/-- An update that is accepted is accepted again, and folds its bytes again (R60). -/
theorem update_twice (hupdate : i.isUpdate = true) (hexec : exec i s = .next t)
    (hok : t.responses = s.responses ++ [okResponse]) :
    ∃ u : State, exec i t = .next u ∧ u.responses = t.responses ++ [okResponse] ∧
      u.crc = foldAll s.table t.crc (i.updateData s.buf) := by
  rcases exec_next hexec with ⟨e, hr, rfl⟩ | ⟨hr, hh, rfl⟩
  · have hcode : errorCode e = 0#4 := by simpa [okResponse] using hok
    exact absurd hcode (errorCode_ne_zero e)
  · have hanswer : answer (effect s i) i = 0#32 := (effect_of_isUpdate hupdate).2
    have hagain := exec_again_of_effect hr hh (answer s i)
    rw [hanswer] at hagain
    exact ⟨_, hagain, by simp [okResponse], effect_twice_crc_of_isUpdate hupdate⟩

end Twice

/-- An update that changes CRC again: the byte 0xFF from the default seed is a plain shift, twice. -/
theorem update_twice_changes_crc :
    ∃ (s t u : State) (nm1 : BitVec 2) (v : Word),
      exec (.updateImm nm1 v) s = .next t ∧ exec (.updateImm nm1 v) t = .next u ∧ u.crc ≠ t.crc := by
  refine ⟨State.reset, _, _, 0#2, 0xFF#32, exec_of_effect rfl rfl, exec_of_effect rfl rfl, ?_⟩
  have hfirst : fold (tableOf defaultPoly) defaultSeed 0xFF#8 = 0x00FFFFFF#32 := fold_low_byte defaultPoly defaultSeed
  have hsecond : fold (tableOf defaultPoly) 0x00FFFFFF#32 0xFF#8 = 0x0000FFFF#32 := fold_low_byte defaultPoly _
  show fold (tableOf defaultPoly) (fold (tableOf defaultPoly) defaultSeed 0xFF#8) 0xFF#8 ≠
    fold (tableOf defaultPoly) defaultSeed 0xFF#8
  rw [hfirst, hsecond]
  decide

/-- Settles O41: the reads, the commands that are no update, and the updates, each issued twice. -/
theorem readsAndRepeatedWrites : Obligations.ReadsAndRepeatedWrites :=
  ⟨fun _ _ _ _ hread hexec => read_twice hread hexec,
    fun _ _ _ hinv hupdate hexec => not_update_twice hinv.bufWf hupdate hexec,
    fun _ _ _ _ hupdate hexec hok => update_twice hupdate hexec hok,
    update_twice_changes_crc⟩

end Sys2Proof.Machine

/-! PROOFS. The statements of 30_encoding.md: decode after encode (R83, R86, R89), the illegal words (R87, R91), the ARG
bits a command ignores (R84), and the words the assembler writes (R89, R90). -/

namespace Sys2Proof.Machine

/-! ## Decode after encode -/

/-- Each constructor's opcode leads the opcode map back to it; an `update_imm` operand that fits its n bytes is its own
low bytes. -/
theorem decode_encode {i : Instr} (h : i.wf = true) : decode (encode i) = .ok i := by
  cases i with
  | updateImm nm1 v =>
    have hfits : v.toNat < 2 ^ (8 * byteCount nm1) := of_decide_eq_true h
    simp [encode, decode_cmdWord, decodeFields, decodeN, lowBytes_of_lt (byteCount_le nm1) hfits]
  | writeBuf a b => simp [encode, decode_cmdWord, decodeFields]
  | _ => exact decode_cmdWord ..

/-- Settles O7: constructor by constructor, through the fields of the encoded word. -/
theorem decodeOfEncodeIsTheCommand : Obligations.DecodeOfEncodeIsTheCommand := fun _ h => decode_encode h

/-! ## Illegal words -/

theorem decode_of_rsv {c : Command} (h : cmdRsv c.cmd ≠ 0#8) : decode c = .error .reservedFieldNotZero := if_pos h

theorem decodeZ_of_ne {imm : Half} (h : imm ≠ 0#16) (i : Instr) : decodeZ imm i = .error .immediateNotZero :=
  if_neg h

theorem decodeN_of_ne {imm : Half} (h : immCountRest imm ≠ 0#14) (arg : Word) :
    decodeN imm arg = .error .countFieldNotZero :=
  if_neg h

theorem decodeFields_of_reserved {op : Byte} (h : 0x0E ≤ op.toNat) (imm : Half) (arg : Word) :
    decodeFields op imm arg = .error .reservedOpcode := by
  unfold decodeFields
  split
  case h_15 => rfl
  all_goals omega

theorem decodeZ_error_iff {imm : Half} {i : Instr} : (∃ why, decodeZ imm i = .error why) ↔ imm ≠ 0#16 := by
  by_cases h : imm = 0#16
  · simp [decodeZ, h]
  · simp [decodeZ_of_ne h, h]

theorem decodeN_error_iff {imm : Half} {arg : Word} :
    (∃ why, decodeN imm arg = .error why) ↔ immCountRest imm ≠ 0#14 := by
  by_cases h : immCountRest imm = 0#14
  · simp [decodeN, h]
  · simp [decodeN_of_ne h, h]

/-- The fields the opcode map refuses: a reserved opcode, or a form whose immediate must be zero and is not (R87). -/
theorem decodeFields_error_iff {op : Byte} {imm : Half} {arg : Word} :
    (∃ why, decodeFields op imm arg = .error why) ↔
      0x0E ≤ op.toNat ∨
      (op.toNat ∈ [0x00, 0x01, 0x02, 0x03, 0x04, 0x07, 0x0A, 0x0D] ∧ imm ≠ 0#16) ∨
      (op.toNat = 0x05 ∧ immCountRest imm ≠ 0#14) := by
  by_cases hop : 0x0E ≤ op.toNat
  · simp [hop, decodeFields_of_reserved]
  · unfold decodeFields
    split
    case h_15 => simp only [imp_false] at *; omega
    all_goals
      rename_i hcode
      simp [hcode, decodeZ_error_iff, decodeN_error_iff]

theorem decode_error_iff {c : Command} :
    (∃ why, decode c = .error why) ↔
      cmdRsv c.cmd ≠ 0#8 ∨ ∃ why, decodeFields (cmdOpc c.cmd) (cmdImm c.cmd) c.arg = .error why := by
  by_cases h : cmdRsv c.cmd = 0#8
  · simp [decode, h]
  · simp [decode_of_rsv h, h]

/-- IMM[15:2] is CMD[15:2] (R81, R82). -/
theorem immCountRest_cmdImm (c : Word) : immCountRest (cmdImm c) = c.extractLsb' 2 14 := by
  rw [immCountRest, cmdImm, BitVec.extractLsb'_extractLsb'_of_le (by decide)]

/-- Settles O9: the words decode by evaluation; each illegal one fails the check R91 names for it. -/
theorem workedEncodingsDecode : Obligations.WorkedEncodingsDecode :=
  ⟨rfl, rfl, rfl, rfl, rfl, rfl, rfl,
    fun arg => decode_of_rsv (c := ⟨0x00010000#32, arg⟩) (show cmdRsv 0x00010000#32 ≠ 0#8 by decide),
    fun arg => (decode_cmdWord 0x07#8 1#16 arg).trans (decodeZ_of_ne (by decide) .finalize),
    fun arg => (decode_cmdWord 0x05#8 4#16 arg).trans (decodeN_of_ne (by decide) arg),
    fun arg => (decode_cmdWord 0x0E#8 0#16 arg).trans (decodeFields_of_reserved (by decide) 0#16 arg)⟩

/-! ## The command that does nothing -/

/-- A command that does nothing is not rejected, answers 0 and has no effect. -/
theorem effect_of_does_nothing {i : Instr} {s : State} (h : exec i s = .next (answeredOk 0#32 s)) :
    rejection s i = none ∧ answer s i = 0#32 ∧ effect s i = s := by
  rcases exec_next h with ⟨e, _, ht⟩ | ⟨hr, _, ht⟩
  · have hcode : 0#4 = errorCode e := by simpa using congrArg State.responses ht
    exact absurd hcode.symm (errorCode_ne_zero e)
  · have hanswer : 0#32 = answer s i := by simpa using congrArg State.responses ht
    refine ⟨hr, hanswer.symm, ?_⟩
    calc effect s i
      _ = { answeredOk (answer s i) (effect s i) with responses := (effect s i).responses } := rfl
      _ = { answeredOk 0#32 s with responses := s.responses } := by rw [← ht, effect_keeps_responses]
      _ = s := rfl

theorem complement_ne {w : Nat} (v : BitVec (w + 1)) : ~~~v ≠ v := fun h => by
  simpa using congrArg (BitVec.getLsbD · 0) h

/-- A state in which every mapped index reads as other than 0. Its table is none that R31 allows, and none of those
would do: TABLE[0] is 0 for every TBL_POLY (R115), so that no run tells `read_reg TABLE+0` from `nop`. -/
def filledState : State :=
  { State.reset with
    result := 0xFFFFFFFF#32
    phase := .final
    table := ⟨List.replicate 256 0xFFFFFFFF#32, List.length_replicate⟩
    bufLen := 1#16 }

theorem tableAt_filledState (i : Byte) : tableAt filledState.table i = 0xFFFFFFFF#32 := by
  simp only [filledState, tableAt, List.getElem_replicate]

theorem readIndex_filledState (idx : Half) : filledState.readIndex idx ≠ some 0#32 := by
  unfold State.readIndex
  split
  case h_13 =>
    split
    · simp [tableAt_filledState]
    · nofun
  all_goals decide

/-- Reset with one byte in the buffer. -/
def holdingByte (a : Nat) (b : Byte) : State := { State.reset with buf := Memory.writeByte [] a b }

theorem readByte_holdingByte (a : Nat) (b : Byte) : (holdingByte a b).buf.readByte a = b := by
  rw [holdingByte, readByte_writeByte wf_nil, if_pos rfl]

/-- A write whose first byte differs from the one held changes the buffer. -/
theorem writeBytes_ne {m : Memory} (hm : m.wf) {a : Nat} (n : Nat) {v : Word} (h : m.readByte a ≠ byteOf v 0) :
    m.writeBytes a (bytesOf (n + 1) v) ≠ m := by
  intro heq
  have hread := readByte_writeBytes hm a (bytesOf (n + 1) v) a
  rw [heq, dif_pos (by simp)] at hread
  exact h (hread.trans (by simp [bytesOf]))

theorem writeBytes_holdingByte_ne (a n : Nat) (v : Word) :
    (holdingByte a (~~~byteOf v 0)).buf.writeBytes a (bytesOf (n + 1) v) ≠ (holdingByte a (~~~byteOf v 0)).buf :=
  writeBytes_ne (wf_writeByte wf_nil a _) n ((readByte_holdingByte a _).trans_ne (complement_ne _))

/-- For every command but `nop` there is a state in which it is rejected, answers something, or changes an element: a
write meets the complement of what it writes, a read a value other than 0. As in R87's sentence, the states are all
values of State. -/
theorem does_something_of_ne_nop {i : Instr} (h : i ≠ .nop) :
    ∃ s : State, rejection s i ≠ none ∨ answer s i ≠ 0#32 ∨ effect s i ≠ s := by
  have changes (s : State) (he : effect s i ≠ s) :
      ∃ s : State, rejection s i ≠ none ∨ answer s i ≠ 0#32 ∨ effect s i ≠ s := ⟨s, .inr (.inr he)⟩
  cases i with
  | nop => exact absurd rfl h
  | setPoly p =>
    exact changes { State.reset with poly := ~~~p } fun he => complement_ne p (congrArg State.poly he).symm
  | buildTable => exact ⟨{ State.reset with poly := 0#32, phase := .active }, .inl (by decide)⟩
  | setSeed v =>
    exact changes { State.reset with seed := ~~~v } fun he => complement_ne v (congrArg State.seed he).symm
  | reset => exact changes { State.reset with phase := .active } fun he => nomatch congrArg State.phase he
  | updateImm nm1 v => exact ⟨{ State.reset with phase := .final }, .inl nofun⟩
  | updateBuf off len => exact ⟨{ State.reset with phase := .final }, .inl nofun⟩
  | finalize => exact changes State.reset fun he => nomatch congrArg State.phase he
  | writeBuf a b =>
    exact changes (holdingByte a.toNat _) fun he =>
      writeBytes_holdingByte_ne a.toNat 0 (b.setWidth 32) (congrArg State.buf he)
  | writeBuf4 a w =>
    exact changes (holdingByte a.toNat _) fun he => writeBytes_holdingByte_ne a.toNat 3 w (congrArg State.buf he)
  | setBufLen l =>
    exact changes { State.reset with bufLen := ~~~(l.setWidth 16) } fun he =>
      complement_ne (l.setWidth 16) (congrArg State.bufLen he).symm
  | readReg idx =>
    refine ⟨filledState, ?_⟩
    cases hv : filledState.readIndex idx with
    | none => exact .inl (by simp [rejection, hv])
    | some v =>
      have hne : v ≠ 0#32 := fun hzero => readIndex_filledState idx (hv.trans (congrArg some hzero))
      exact .inr (.inl (by simpa [answer, hv] using hne))
  | readBuf a =>
    refine ⟨holdingByte a.toNat 1#8, .inr (.inl ?_)⟩
    rw [answer, readByte_holdingByte]
    decide
  | clearErr => exact changes { State.reset with err := true } fun he => nomatch congrArg State.err he

/-- Settles O5: the checks of the decoder read backwards, the one rejection of an undecoded word, and for every command
but `nop` a state in which it does something. -/
theorem illegalWordsAreExactlyThese : Obligations.IllegalWordsAreExactlyThese := by
  refine ⟨fun c => ?_, fun s c rest why hin hd => ?_, fun i => ⟨fun h => ?_, ?_⟩⟩
  · rw [decode_error_iff, decodeFields_error_iff, immCountRest_cmdImm]
    rfl
  · rw [step_of_command hin]
    exact perform_illegal hd _
  · by_contra hne
    obtain ⟨s, hsome⟩ := does_something_of_ne_nop hne
    obtain ⟨hr, ha, he⟩ := effect_of_does_nothing (h s)
    rcases hsome with hsome | hsome | hsome
    · exact hsome hr
    · exact hsome ha
    · exact hsome he
  · rintro rfl s
    rfl

/-! ## Ignored ARG bits -/

/-- R84 for one command and the fields it is decoded from: the command is well-formed, the encoder writes these fields
with 0 in the ARG bits the command ignores, and every ARG with the same used bits gives the same command. -/
def DependsOnUsedBits (op : Byte) (imm : Half) (arg : Word) (i : Instr) : Prop :=
  i.wf = true ∧ encode i = ⟨cmdWord op imm, arg &&& usedArgBits i⟩ ∧
    ∀ arg' : Word, arg' &&& usedArgBits i = arg &&& usedArgBits i → decodeFields op imm arg' = .ok i

section UsedBits

variable {op : Byte} {imm : Half} {arg : Word} {i : Instr}

/-- The commands that ignore ARG. -/
theorem dependsOnUsedBits_of_ignored (hwf : i.wf = true) (hused : usedArgBits i = 0#32)
    (henc : encode i = ⟨cmdWord op imm, 0#32⟩) (hdec : ∀ a, decodeFields op imm a = .ok i) :
    DependsOnUsedBits op imm arg i :=
  ⟨hwf, by rw [henc, hused, BitVec.and_zero], fun arg' _ => hdec arg'⟩

/-- The commands whose operand is the whole of ARG. -/
theorem dependsOnUsedBits_of_whole (hwf : i.wf = true) (hused : usedArgBits i = BitVec.allOnes 32)
    (henc : encode i = ⟨cmdWord op imm, arg⟩) (hdec : decodeFields op imm arg = .ok i) :
    DependsOnUsedBits op imm arg i := by
  simp only [DependsOnUsedBits, hused, BitVec.and_allOnes]
  exact ⟨hwf, henc, fun _ harg => harg ▸ hdec⟩

theorem dependsOnUsedBits_updateImm (hrest : immCountRest imm = 0#14) :
    DependsOnUsedBits 0x05#8 imm arg (.updateImm (immCount imm) (lowBytes (byteCount (immCount imm)) arg)) := by
  refine ⟨decide_eq_true (lowBytes_lt (byteCount_le _) arg), ?_, fun arg' harg => ?_⟩
  · rw [encode, imm_of_count hrest]
    rfl
  · exact decodeN_ok.2 ⟨hrest, congrArg (Instr.updateImm _) harg⟩

/-- ARG[7:0], zero-extended, is the low byte of ARG (R83, R84). -/
theorem byteOf_zero_setWidth (v : Word) : (byteOf v 0).setWidth 32 = lowBytes 1 v := by
  refine BitVec.eq_of_toNat_eq ?_
  rw [toNat_lowBytes (by decide)]
  simp [byteOf]
  omega

theorem dependsOnUsedBits_writeBuf : DependsOnUsedBits 0x08#8 imm arg (.writeBuf imm (byteOf arg 0)) := by
  refine ⟨rfl, ?_, fun arg' harg => ?_⟩
  · rw [encode, byteOf_zero_setWidth]
    rfl
  · have hlow : lowBytes 1 arg' = lowBytes 1 arg := harg
    have hbyte : byteOf arg' 0 = byteOf arg 0 := by
      rw [← byteOf_setWidth (byteOf arg' 0), byteOf_zero_setWidth, hlow, ← byteOf_zero_setWidth, byteOf_setWidth]
    exact congrArg (fun b => Except.ok (Instr.writeBuf imm b)) hbyte

/-- Every row of the opcode map ignores ARG or takes it whole, but `update_imm` and `write_buf` (R84, R85). -/
theorem dependsOnUsedBits_of_decodeFields (h : decodeFields op imm arg = .ok i) : DependsOnUsedBits op imm arg i := by
  rcases decodeFields_ok h with ⟨rfl, rfl, rfl⟩ | ⟨rfl, rfl, rfl⟩ | ⟨rfl, rfl, rfl⟩ | ⟨rfl, rfl, rfl⟩ |
    ⟨rfl, rfl, rfl⟩ | ⟨rfl, hrest, rfl⟩ | ⟨rfl, rfl⟩ | ⟨rfl, rfl, rfl⟩ | ⟨rfl, rfl⟩ | ⟨rfl, rfl⟩ | ⟨rfl, rfl, rfl⟩ |
    ⟨rfl, rfl⟩ | ⟨rfl, rfl⟩ | ⟨rfl, rfl, rfl⟩
  · exact dependsOnUsedBits_of_ignored rfl rfl rfl fun _ => rfl
  · exact dependsOnUsedBits_of_whole rfl rfl rfl h
  · exact dependsOnUsedBits_of_ignored rfl rfl rfl fun _ => rfl
  · exact dependsOnUsedBits_of_whole rfl rfl rfl h
  · exact dependsOnUsedBits_of_ignored rfl rfl rfl fun _ => rfl
  · exact dependsOnUsedBits_updateImm hrest
  · exact dependsOnUsedBits_of_whole rfl rfl rfl h
  · exact dependsOnUsedBits_of_ignored rfl rfl rfl fun _ => rfl
  · exact dependsOnUsedBits_writeBuf
  · exact dependsOnUsedBits_of_whole rfl rfl rfl h
  · exact dependsOnUsedBits_of_whole rfl rfl rfl h
  · exact dependsOnUsedBits_of_ignored rfl rfl rfl fun _ => rfl
  · exact dependsOnUsedBits_of_ignored rfl rfl rfl fun _ => rfl
  · exact dependsOnUsedBits_of_ignored rfl rfl rfl fun _ => rfl

end UsedBits

/-- Settles O8: a CMD word that decodes is its opcode and immediate, and the opcode map depends on the used bits. -/
theorem ignoredArgBitsHaveNoEffect : Obligations.IgnoredArgBitsHaveNoEffect := by
  intro c i hd
  obtain ⟨hrsv, hfields⟩ := decode_ok hd
  obtain ⟨hwf, henc, hdec⟩ := dependsOnUsedBits_of_decodeFields hfields
  rw [cmdWord_of_fields hrsv] at henc
  refine ⟨hwf, by rw [henc], by rw [henc], fun arg harg => ?_⟩
  rw [← cmdWord_of_fields hrsv, decode_cmdWord]
  exact hdec arg harg

/-! ## The operands of an assembler line -/

theorem asmOperand_of_lt {w n : Nat} (h : n < 2 ^ w) : asmOperand w n = some (BitVec.ofNat w n) := if_pos h

theorem asmOperand_of_ge {w n : Nat} (h : 2 ^ w ≤ n) : asmOperand w n = none := if_neg (not_lt.2 h)

/-- Two operands, both in their ranges or refused. -/
theorem asmOperand_two {α : Type} {w w' n n' : Nat} (f : BitVec w → BitVec w' → α) :
    (do some (f (← asmOperand w n) (← asmOperand w' n'))) =
      if n < 2 ^ w ∧ n' < 2 ^ w' then some (f (BitVec.ofNat w n) (BitVec.ofNat w' n')) else none := by
  by_cases h : n < 2 ^ w
  · by_cases h' : n' < 2 ^ w'
    · simp [asmOperand_of_lt h, asmOperand_of_lt h', h, h']
    · simp [asmOperand_of_lt h, asmOperand_of_ge (not_lt.1 h'), h']
  · simp [asmOperand_of_ge (not_lt.1 h), h]

/-- A list of operands that are all in range is taken as it is. -/
theorem mapM_asmOperand_toNat {w : Nat} (bs : List (BitVec w)) :
    (bs.map BitVec.toNat).mapM (asmOperand w) = some bs := by
  induction bs with
  | nil => rfl
  | cons b bs ih => simp [ih, asmOperand_of_lt b.isLt]

/-- A list with one operand out of range is refused. -/
theorem mapM_asmOperand_of_exists_ge {w : Nat} {bs : List Nat} (h : ∃ b ∈ bs, 2 ^ w ≤ b) :
    bs.mapM (asmOperand w) = none := by
  induction bs with
  | nil => simp at h
  | cons b bs ih =>
    by_cases hb : 2 ^ w ≤ b
    · simp [asmOperand_of_ge hb]
    · have htail : ∃ b ∈ bs, 2 ^ w ≤ b := by simpa [hb] using h
      simp [ih htail]

theorem mapM_asmOperand_ne_nil {w : Nat} {bs : List Nat} {vs : List (BitVec w)} (hbs : bs ≠ [])
    (h : bs.mapM (asmOperand w) = some vs) : vs ≠ [] := by
  cases bs with
  | nil => exact absurd rfl hbs
  | cons b bs =>
    rintro rfl
    simp [Option.bind_eq_some_iff] at h

theorem asmUpdateImm_of_ge {n v : Nat} (h : 2 ^ (8 * n) ≤ v) : asmUpdateImm n v = none :=
  if_neg fun hrange => not_lt.2 h hrange.2.2

/-! ## load_bytes -/

/-- With every address below 2^16, no address of the expansion is refused. -/
theorem asmLoadBytes_eq_loadBytes {a : Nat} {bs : List Byte} (h : a + bs.length ≤ 2 ^ 16) :
    asmLoadBytes a bs = some (loadBytes a bs) := by
  induction a, bs using loadBytes.induct with
  | case1 a => rfl
  | case2 a b0 b1 b2 b3 bs ih =>
    simp only [List.length_cons] at h
    rw [asmLoadBytes, loadBytes, asmOperand_of_lt (by omega), ih (by omega)]
    rfl
  | case3 a b bs hshort ih =>
    simp only [List.length_cons] at h
    rw [asmLoadBytes.eq_3 _ _ _ hshort, loadBytes.eq_3 _ _ _ hshort, asmOperand_of_lt (by omega), ih (by omega)]
    rfl

theorem asmLoadBytes_of_ge {a : Nat} {bs : List Byte} (hbs : bs ≠ []) (h : 2 ^ 16 ≤ a) :
    asmLoadBytes a bs = none := by
  unfold asmLoadBytes
  split
  · exact absurd rfl hbs
  · rw [asmOperand_of_ge h]; rfl
  · rw [asmOperand_of_ge h]; rfl

/-- Settles O56: the bytes are in range, and so is every address. -/
theorem loadBytesExpandsAsTheFacadeDoes : Obligations.LoadBytesExpandsAsTheFacadeDoes := by
  intro a bs h
  have hexpand : asmInstrs (.loadBytes a (bs.map BitVec.toNat)) = some (loadBytes a bs) := by
    rw [asmInstrs, mapM_asmOperand_toNat]
    exact asmLoadBytes_eq_loadBytes h
  exact congrArg (Option.map (List.map encode)) hexpand

/-! ## The commands of a line are well-formed -/

/-- What a line gives, where it is not refused, are well-formed commands. -/
def AllWf (o : Option (List Instr)) : Prop := ∀ is, o = some is → ∀ i ∈ is, i.wf = true

theorem allWf_some {is : List Instr} (h : ∀ i ∈ is, i.wf = true) : AllWf (some is) := by
  intro js hjs
  cases hjs
  exact h

theorem allWf_bind {α : Type} {o : Option α} {f : α → Option (List Instr)} (h : ∀ v, o = some v → AllWf (f v)) :
    AllWf (o >>= f) := by
  intro is his
  obtain ⟨v, hv, hf⟩ := Option.bind_eq_some_iff.1 his
  exact h v hv is hf

/-- The assembler's check of `update_imm n, V` is the one of `Instr.wf` (R89). -/
theorem wf_of_asmUpdateImm {n v : Nat} {i : Instr} (h : asmUpdateImm n v = some i) : i.wf = true := by
  unfold asmUpdateImm at h
  split at h
  · next hrange =>
    obtain ⟨h1, h4, hv⟩ := hrange
    have hcount : byteCount (BitVec.ofNat 2 (n - 1)) = n := by simp [byteCount]; omega
    cases h
    rw [Instr.wf, hcount, decide_eq_true_iff, BitVec.toNat_ofNat]
    exact (Nat.mod_le _ _).trans_lt hv
  · cases h

/-- An `update_imm` operand with the value of its n bytes is in its range (R89). -/
theorem wf_updateImm_of_bytes {nm1 : BitVec 2} {v : Word} (u : BitVec (8 * byteCount nm1)) (h : v.toNat = u.toNat) :
    Instr.wf (.updateImm nm1 v) = true := by
  rw [Instr.wf, h]
  exact decide_eq_true u.isLt

/-- A group of `update_bytes` has zeros above its bytes (R90). -/
theorem wf_of_mem_updateBytes {bs : List Byte} : ∀ i ∈ updateBytes bs, i.wf = true := by
  induction bs using updateBytes.induct with
  | case1 => nofun
  | case2 b0 =>
    have hv : (packWord b0 0#8 0#8 0#8).toNat = b0.toNat := by
      simp only [packWord, BitVec.toNat_append]; simp
    exact List.forall_mem_singleton.2 (wf_updateImm_of_bytes (nm1 := 0#2) b0 hv)
  | case3 b0 b1 =>
    have hv : (packWord b0 b1 0#8 0#8).toNat = (b1 ++ b0).toNat := by
      simp only [packWord, BitVec.toNat_append]; simp
    exact List.forall_mem_singleton.2 (wf_updateImm_of_bytes (nm1 := 1#2) (b1 ++ b0) hv)
  | case4 b0 b1 b2 =>
    have hv : (packWord b0 b1 b2 0#8).toNat = (b2 ++ b1 ++ b0).toNat := by
      simp only [packWord, BitVec.toNat_append]; simp
    exact List.forall_mem_singleton.2 (wf_updateImm_of_bytes (nm1 := 2#2) (b2 ++ b1 ++ b0) hv)
  | case5 b0 b1 b2 b3 bs ih =>
    exact List.forall_mem_cons.2 ⟨decide_eq_true (packWord b0 b1 b2 b3).isLt, ih⟩

theorem allWf_asmLoadBytes (a : Nat) (bs : List Byte) : AllWf (asmLoadBytes a bs) := by
  induction a, bs using asmLoadBytes.induct with
  | case1 a => exact allWf_some nofun
  | case2 a b0 b1 b2 b3 bs ih =>
    rw [asmLoadBytes]
    exact allWf_bind fun _ _ => allWf_bind fun rest hrest =>
      allWf_some (List.forall_mem_cons.2 ⟨rfl, ih rest hrest⟩)
  | case3 a b bs hshort ih =>
    rw [asmLoadBytes.eq_3 _ _ _ hshort]
    exact allWf_bind fun _ _ => allWf_bind fun rest hrest =>
      allWf_some (List.forall_mem_cons.2 ⟨rfl, ih rest hrest⟩)

theorem allWf_asmInstrs (l : AsmLine) : AllWf (asmInstrs l) := by
  cases l with
  | blank | nop | buildTable | reset | finalize | clearErr | readResult | readDigest => exact allWf_some (by decide)
  | setPoly | setSeed | setBufLen | readReg | readBuf => exact allWf_bind fun _ _ => allWf_some (by simp [Instr.wf])
  | updateBuf | writeBuf | writeBuf4 =>
    exact allWf_bind fun _ _ => allWf_bind fun _ _ => allWf_some (by simp [Instr.wf])
  | updateImm | updateByte =>
    exact allWf_bind fun _ hi => allWf_some (List.forall_mem_singleton.2 (wf_of_asmUpdateImm hi))
  | rawWords => exact nofun
  | selectPoly | start => exact allWf_bind fun _ _ => allWf_some (by simp [Instr.wf, selectPoly, startSession])
  | loadBytes a => exact allWf_bind fun bs _ => allWf_asmLoadBytes a bs
  | updateBytes => exact allWf_bind fun _ _ => allWf_some wf_of_mem_updateBytes

/-! ## The words of a line -/

theorem assemble_of_asmInstrs {l : AsmLine} {is : List Instr} (h : asmInstrs l = some is) :
    assemble l = some (is.map encode) := by
  cases l with
  | rawWords c g => cases h
  | _ => exact congrArg (Option.map (List.map encode)) h

/-- The CMD word of an opcode and an immediate in its range, as a number (R81). -/
theorem cmdWord_ofNat (opc : Byte) {n : Nat} (hn : n < 2 ^ 16) :
    cmdWord opc (BitVec.ofNat 16 n) = BitVec.ofNat 32 (opc.toNat * 2 ^ 24 + n) := by
  refine BitVec.eq_of_toNat_eq ?_
  simp only [cmdWord, BitVec.toNat_append, BitVec.toNat_ofNat, Nat.mod_eq_of_lt hn]
  rw [← Nat.shiftLeft_add_eq_or_of_lt hn]
  simp [Nat.shiftLeft_eq]
  omega

/-- A row of R89's table with one operand. -/
theorem assemble_row_one {l : AsmLine} {w n : Nat} {f : BitVec w → Instr} {c : Command}
    (hl : assemble l = Option.map (List.map encode) (do some [f (← asmOperand w n)]))
    (hc : n < 2 ^ w → encode (f (BitVec.ofNat w n)) = c) :
    assemble l = if n < 2 ^ w then some [c] else none := by
  rw [hl]
  split
  · next h => simp [asmOperand_of_lt h, hc h]
  · next h => simp [asmOperand_of_ge (not_lt.1 h)]

/-- A row of R89's table with two operands. -/
theorem assemble_row_two {l : AsmLine} {w w' n n' : Nat} {f : BitVec w → BitVec w' → Instr} {c : Command}
    (hl : assemble l = Option.map (List.map encode) (do some [f (← asmOperand w n) (← asmOperand w' n')]))
    (hc : n < 2 ^ w → n' < 2 ^ w' → encode (f (BitVec.ofNat w n) (BitVec.ofNat w' n')) = c) :
    assemble l = if n < 2 ^ w ∧ n' < 2 ^ w' then some [c] else none := by
  rw [hl, asmOperand_two fun v v' => [f v v']]
  split
  · next h => simp [hc h.1 h.2]
  · rfl

theorem assemble_updateImm (n v : Nat) : assemble (.updateImm n v) =
    if 1 ≤ n ∧ n ≤ 4 ∧ v < 2 ^ (8 * n) then
      some [⟨BitVec.ofNat 32 (0x05000000 + (n - 1)), BitVec.ofNat 32 v⟩] else none := by
  have hl : assemble (.updateImm n v) = Option.map (List.map encode) (do some [← asmUpdateImm n v]) := rfl
  rw [hl, asmUpdateImm]
  split
  · next hrange =>
    obtain ⟨h1, h4, _⟩ := hrange
    have hcount : (BitVec.ofNat 2 (n - 1)).setWidth 16 = BitVec.ofNat 16 (n - 1) :=
      BitVec.eq_of_toNat_eq (by simp; omega)
    simp [encode, hcount, cmdWord_ofNat 0x05#8 (show n - 1 < 2 ^ 16 by omega)]
  · rfl

theorem assemble_writeBuf (a b : Nat) : assemble (.writeBuf a b) =
    if a < 2 ^ 16 ∧ b < 2 ^ 8 then some [⟨BitVec.ofNat 32 (0x08000000 + a), BitVec.ofNat 32 b⟩] else none := by
  refine assemble_row_two rfl fun ha hb => congrArg₂ Command.mk (cmdWord_ofNat 0x08#8 ha) ?_
  exact BitVec.eq_of_toNat_eq (by simp; omega)

/-! ## The refusals of the pseudo-instructions (R90) -/

theorem assemble_updateByte_of_ge {n : Nat} (h : 2 ^ 8 ≤ n) : assemble (.updateByte n) = none := by
  simp [assemble, asmInstrs, asmUpdateImm_of_ge (n := 1) h]

theorem assemble_selectPoly_of_ge {n : Nat} (h : 2 ^ 32 ≤ n) : assemble (.selectPoly n) = none := by
  simp [assemble, asmInstrs, asmOperand_of_ge h]

theorem assemble_start_of_ge {n : Nat} (h : 2 ^ 32 ≤ n) : assemble (.start n) = none := by
  simp [assemble, asmInstrs, asmOperand_of_ge h]

theorem assemble_updateBytes_of_exists_ge {bs : List Nat} (h : ∃ b ∈ bs, 2 ^ 8 ≤ b) :
    assemble (.updateBytes bs) = none := by
  simp [assemble, asmInstrs, mapM_asmOperand_of_exists_ge h]

theorem assemble_loadBytes_of_exists_ge (a : Nat) {bs : List Nat} (h : ∃ b ∈ bs, 2 ^ 8 ≤ b) :
    assemble (.loadBytes a bs) = none := by
  simp [assemble, asmInstrs, mapM_asmOperand_of_exists_ge h]

theorem assemble_loadBytes_of_ge {a : Nat} {bs : List Nat} (hbs : bs ≠ []) (h : 2 ^ 16 ≤ a) :
    assemble (.loadBytes a bs) = none := by
  have hrefused : asmInstrs (.loadBytes a bs) = none := by
    rw [asmInstrs]
    cases hm : bs.mapM (asmOperand 8) with
    | none => rfl
    | some bytes => exact asmLoadBytes_of_ge (mapM_asmOperand_ne_nil hbs hm) h
  exact congrArg (Option.map (List.map encode)) hrefused

/-- Settles O55: the lines' commands are well-formed, so their encodings decode back; the words are R89's table row
by row. -/
theorem assemblerWritesLegalWords : Obligations.AssemblerWritesLegalWords :=
  ⟨fun l is h => ⟨assemble_of_asmInstrs h, fun i hi =>
      have hwf := allWf_asmInstrs l is h i hi
      ⟨hwf, decode_encode hwf⟩⟩,
    ⟨rfl, rfl, rfl, rfl, rfl⟩,
    fun _ => assemble_row_one rfl fun _ => rfl,
    fun _ => assemble_row_one rfl fun _ => rfl,
    assemble_updateImm,
    fun _ _ => assemble_row_two rfl fun h _ => congrArg (Command.mk · _) (cmdWord_ofNat 0x06#8 h),
    assemble_writeBuf,
    fun _ _ => assemble_row_two rfl fun h _ => congrArg (Command.mk · _) (cmdWord_ofNat 0x09#8 h),
    fun _ => assemble_row_one rfl fun _ => rfl,
    fun _ => assemble_row_one rfl fun h => congrArg (Command.mk · _) (cmdWord_ofNat 0x0B#8 h),
    fun _ => assemble_row_one rfl fun h => congrArg (Command.mk · _) (cmdWord_ofNat 0x0C#8 h),
    fun _ _ => asmOperand_two fun c g => [Command.mk c g],
    fun _ => ⟨assemble_updateByte_of_ge, fun h => ⟨assemble_selectPoly_of_ge h, assemble_start_of_ge h⟩⟩,
    fun a _ => ⟨fun h => ⟨assemble_updateBytes_of_exists_ge h, assemble_loadBytes_of_exists_ge a h⟩,
      assemble_loadBytes_of_ge⟩⟩

end Sys2Proof.Machine

/-! PROOFS. The statements of 40_table_builder.md: the table function (R110, R111) and its laws (R115), and the commands
set_poly (R112) and build_table (R113, R114). -/

namespace Sys2Proof.Machine

/-! ## The table function -/

/-- A sequence whose first n terms step as R110 says holds the iterations of its own start. -/
theorem entrySteps_of_sequence {P : Word} {c : Nat → Word} {n : Nat}
    (hstep : ∀ k, k < n → c (k + 1) = entryStep P (c k)) : entrySteps P n (c 0) = c n := by
  induction n with
  | zero => rfl
  | succ n ih => rw [entrySteps_succ, ih fun k hk => hstep k (by omega), hstep n n.lt_succ_self]

/-- Settles O13: the sequence holds the iterations of `entry`, and the table holds the entries by index. -/
theorem entryIsEightShiftAndXorSteps : Obligations.EntryIsEightShiftAndXorSteps :=
  fun P i => ⟨tableAt_tableOf P i, fun _ hstart hstep => by rw [entry, ← hstart, entrySteps_of_sequence hstep]⟩

/-! ## The laws of the table function -/

theorem entry_zero (P : Word) : entry P 0#8 = 0#32 := by
  rw [entry, entrySteps_of_low_zero P (by simp)]
  rfl

/-- Seven plain shifts bring the only bit of 128 to the bottom, and the eighth iteration takes P. -/
theorem entry_128 (P : Word) : entry P 128#8 = P := by
  have hshift : entrySteps P 7 128#32 = 1#32 := entrySteps_of_low_zero P (by decide)
  have hlast : entryStep P 1#32 = P := BitVec.zero_xor
  calc entry P 128#8 = entryStep P (entrySteps P 7 128#32) := entrySteps_succ P 7 128#32
    _ = P := by rw [hshift, hlast]

theorem entry_xor (P : Word) (i j : Byte) : entry P (i ^^^ j) = entry P i ^^^ entry P j := by
  rw [entry, BitVec.setWidth_xor, entrySteps_xor]
  rfl

/-- With P = 0 every iteration is a plain shift. -/
theorem entrySteps_zero_poly (k : Nat) (c : Word) : entrySteps 0#32 k c = c >>> k := by
  induction k with
  | zero => rfl
  | succ k ih => rw [entrySteps_succ, ih, entryStep_eq, ite_self, BitVec.xor_zero, ← BitVec.shiftRight_add]

/-- Eight shifts leave nothing of a byte. -/
theorem entry_zero_poly (i : Byte) : entry 0#32 i = 0#32 := by
  rw [entry, entrySteps_zero_poly]
  exact BitVec.eq_of_getLsbD_eq fun k _ => by simp

/-- Entry 128 of a table gives its polynomial back. -/
theorem tableOf_injective : Function.Injective tableOf := by
  intro P Q h
  have hentry : tableAt (tableOf P) 128#8 = tableAt (tableOf Q) 128#8 := by rw [h]
  rwa [tableAt_tableOf, tableAt_tableOf, entry_128, entry_128] at hentry

/-- Settles O14: linearity in the index is that of the builder's iteration, and entry 128 tells the tables apart. -/
theorem tableFunctionLaws : Obligations.TableFunctionLaws :=
  ⟨entry_zero, entry_128, entry_xor, fun i => (tableAt_tableOf _ i).trans (entry_zero_poly i),
    fun _ _ => tableOf_injective.eq_iff, by decide, by decide⟩

/-! ## The words of a command without immediate -/

/-- An opcode whose immediate must be zero has one legal word (R87). -/
theorem onlyLegalWords_of_no_immediate {opc : Byte}
    (hopc : opc.toNat ∈ [0x00, 0x01, 0x02, 0x03, 0x04, 0x07, 0x0A, 0x0D]) :
    onlyLegalWords opc (· = cmdWord opc 0#16) := by
  refine onlyLegalWords_of fun c i hd hc => ?_
  obtain ⟨hrsv, hfields⟩ := decode_ok hd
  have himm : cmdImm c.cmd = 0#16 := by
    by_contra hne
    obtain ⟨why, herror⟩ := decodeFields_error_iff.2 (.inr (.inl ⟨hc ▸ hopc, hne⟩))
    exact nomatch hfields.symm.trans herror
  rw [← cmdWord_of_fields hrsv, hc, himm]

/-! ## set_poly and build_table -/

/-- Settles O10: the opcode has one legal word, and the command's effect is on POLY alone. -/
theorem setPolyWritesPolyAlone : Obligations.SetPolyWritesPolyAlone :=
  ⟨fun arg => decode_cmdWord 0x01#8 0#16 arg, onlyLegalWords_of_no_immediate (opc := 0x01#8) (by decide),
    fun _ _ => exec_of_effect rfl rfl⟩

theorem rejection_buildTable_eq_none {s : State} (h : ¬ (s.phase = .active ∧ s.poly ≠ s.tblPoly)) :
    rejection s .buildTable = none := if_neg h

theorem rejection_buildTable_in_use {s : State} (hactive : s.phase = .active) (hne : s.poly ≠ s.tblPoly) :
    rejection s .buildTable = some .tableInUse := if_pos ⟨hactive, hne⟩

/-- Settles O11: the table built is table_of(POLY), whose entries are those of `entry`. -/
theorem buildTableReplacesTheWholeTable : Obligations.BuildTableReplacesTheWholeTable :=
  ⟨fun arg => decode_cmdWord 0x02#8 0#16 arg, onlyLegalWords_of_no_immediate (opc := 0x02#8) (by decide),
    fun s h => ⟨tableOf s.poly, tableAt_tableOf s.poly, exec_of_effect (rejection_buildTable_eq_none h) rfl⟩,
    fun _ hactive hne => exec_of_rejection (rejection_buildTable_in_use hactive hne)⟩

/-- Building the held table again has no effect (R31, R114). -/
theorem effect_buildTable_of_held {s : State} (htable : s.table = tableOf s.tblPoly) (hpoly : s.poly = s.tblPoly) :
    effect s .buildTable = s := by
  have hbuilt : tableOf s.poly = s.table := by rw [hpoly, htable]
  exact congrArg₂ (fun T p => { s with table := T, tblPoly := p }) hbuilt hpoly

/-- Settles O12: the build is not rejected, and by the invariant it builds the table held. -/
theorem rebuildOfTheHeldTableChangesNothing : Obligations.RebuildOfTheHeldTableChangesNothing := by
  intro s hinv hpoly
  have hrej : rejection s .buildTable = none := rejection_buildTable_eq_none fun h => h.2 hpoly
  rw [exec_of_effect hrej rfl, effect_buildTable_of_held hinv.table hpoly]
  rfl

end Sys2Proof.Machine

/-! PROOFS. The statements of 41_streaming_engine.md: folding a sequence (R130, R131) and its corner cases (R134), the
commands set_seed (R132), reset (R133), update_imm (R134) and update_buf (R135), the split of a session's data (R136)
and the restarted session (R137). -/

namespace Sys2Proof.Machine

/-! ## Folding a sequence -/

theorem foldAll_append (T : Table) (c : Word) (s t : List Byte) :
    foldAll T c (s ++ t) = foldAll T (foldAll T c s) t := by
  induction s generalizing c with
  | nil => rfl
  | cons b s ih => exact ih (fold T c b)

/-- Settles O19: the table index is b xor c[7:0], and the split is by induction on the first part. -/
theorem foldOfASplitSequence : Obligations.FoldOfASplitSequence :=
  ⟨fun T c b => by rw [← BitVec.setWidth_eq_extractLsb' (by decide), fold_eq], fun _ _ => rfl, fun _ _ _ _ => rfl, foldAll_append⟩

/-! ## The corner cases of a fold -/

theorem bytesOf_succ (n : Nat) (v : Word) : bytesOf (n + 1) v = bytesOf n v ++ [byteOf v n] := by
  simp [bytesOf, List.range_succ]

/-- Byte j of a word is the low byte of the word shifted by j bytes. -/
theorem byteOf_eq_shift (v : Word) (j : Nat) : byteOf v j = (v >>> (8 * j)).setWidth 8 := rfl

/-- Folding the register's own bytes shifts them out, under the table of every polynomial (R134). -/
theorem foldAll_own_bytes (P c : Word) (n : Nat) : foldAll (tableOf P) c (bytesOf n c) = c >>> (8 * n) := by
  induction n with
  | zero => simp [bytesOf]
  | succ n ih =>
    rw [bytesOf_succ, foldAll_append, ih, byteOf_eq_shift, foldAll_cons, fold_low_byte, foldAll_nil,
      ← BitVec.shiftRight_add, Nat.mul_succ]

theorem fold_zero_poly (c : Word) (b : Byte) : fold (tableOf 0#32) c b = c >>> 8 := by
  rw [fold_eq, tableAt_tableOf, entry_zero_poly, BitVec.xor_zero]

theorem foldAll_zero_poly (c : Word) (s : List Byte) : foldAll (tableOf 0#32) c s = c >>> (8 * s.length) := by
  induction s generalizing c with
  | nil => simp
  | cons b s ih =>
    rw [foldAll_cons, fold_zero_poly, ih, ← BitVec.shiftRight_add, List.length_cons, Nat.mul_succ, Nat.add_comm]

/-- Settles O21: four folds under the zero polynomial shift the whole register out, and the four bytes 0xFF are the
default seed's own. -/
theorem foldCornerCases : Obligations.FoldCornerCases := by
  refine ⟨fun P c => ?_, fold_zero_poly, fun c b0 b1 b2 b3 => ?_, fun P => ?_⟩
  · rw [← BitVec.setWidth_eq_extractLsb' (by decide), fold_low_byte]
  · rw [foldAll_zero_poly]
    exact BitVec.ushiftRight_eq_zero (Nat.le_refl 32)
  · exact foldAll_own_bytes P 0xFFFFFFFF#32 4

/-! ## set_seed and reset -/

/-- Settles O15: the opcode has one legal word, and the command's effect is on SEED alone. -/
theorem setSeedWritesSeedAlone : Obligations.SetSeedWritesSeedAlone :=
  ⟨fun arg => decode_cmdWord 0x03#8 0#16 arg, onlyLegalWords_of_no_immediate (opc := 0x03#8) (by decide),
    fun _ _ => exec_of_effect rfl rfl⟩

/-- Settles O16: the opcode has one legal word, and the command's effect is on CRC and PHASE alone. -/
theorem resetLoadsTheSeed : Obligations.ResetLoadsTheSeed :=
  ⟨fun arg => decode_cmdWord 0x04#8 0#16 arg, onlyLegalWords_of_no_immediate (opc := 0x04#8) (by decide),
    fun _ => exec_of_effect rfl rfl⟩

/-! ## update_imm and update_buf -/

/-- CMD[23:2] is RSV and IMM[15:2] side by side (R81, R82). -/
theorem extractLsb'_rsv_count (c : Word) : c.extractLsb' 2 22 = cmdRsv c ++ immCountRest (cmdImm c) := by
  rw [immCountRest_cmdImm, cmdRsv]
  exact (BitVec.extractLsb'_append_extractLsb'_eq_extractLsb' (x := c) (start₁ := 2) (len₁ := 14) rfl).symm

/-- The update that is refused in FINAL is refused with CLOSED, whatever its operands (R224). -/
theorem exec_update_of_final {i : Instr} {s : State} (hupdate : i.isUpdate = true) (hfinal : s.phase = .final) :
    exec i s = .next (rejectedWith 3#4 s) := by
  have hclosed : rejection s i = some .closed := by
    cases i with
    | updateImm nm1 v | updateBuf off len => exact if_pos hfinal
    | _ => cases hupdate
  exact exec_of_rejection hclosed

/-- Settles O17: the word's fields give the operands, and the effect folds the operand's bytes. -/
theorem updateImmFoldsItsBytes : Obligations.UpdateImmFoldsItsBytes := by
  refine ⟨fun nm1 arg => ?_, onlyLegalWords_of fun c i hd hc => ?_, fun nm1 v s hopen => ?_,
    fun _ _ _ => exec_update_of_final rfl⟩
  · have hword : 0x05000000#32 ||| nm1.setWidth 32 = cmdWord 0x05#8 (nm1.setWidth 16) := by
      rw [cmdWord_eq_or, BitVec.setWidth_setWidth (by decide)]
      rfl
    rw [hword, decode_cmdWord]
    exact decodeN_ok.2 ⟨immCountRest_setWidth nm1, by rw [immCount_setWidth]; rfl⟩
  · obtain ⟨hrsv, hfields⟩ := decode_ok hd
    rw [hc] at hfields
    rw [extractLsb'_rsv_count, hrsv, (decodeN_ok.1 hfields).1]
    rfl
  · exact exec_of_effect ((rejection_updateImm_eq_none_iff nm1 v).2 hopen) rfl

/-- Settles O18: the word's fields give the operands, and the effect folds the bytes read from the buffer. -/
theorem updateBufFoldsTheBuffer : Obligations.UpdateBufFoldsTheBuffer := by
  refine ⟨fun off arg => ?_, onlyLegalWords_of fun c i hd _ => (decode_ok hd).1,
    fun off len s hsize hopen hrange => ?_, fun _ _ _ => exec_update_of_final rfl, fun off len s hopen hrange => ?_⟩
  · have hword : 0x06000000#32 ||| off.setWidth 32 = cmdWord 0x06#8 off := (cmdWord_eq_or 0x06#8 off).symm
    rw [hword, decode_cmdWord]
    rfl
  · have hr : rejection s (.updateBuf off len) = none := (rejection_updateBuf_eq_none_iff off len).2 ⟨hopen, hrange⟩
    rw [exec_of_effect hr (reachesHole_of_bufLen hsize hr), ← readBytes_eq]
    rfl
  · have hr : rejection s (.updateBuf off len) = some .range := by
      rw [rejection, if_neg hopen, if_pos hrange]
    exact exec_of_rejection hr

/-! ## A run of accepted commands -/

section AcceptedRun

variable {s t : State} {is : List Instr}

/-- The step of an offered command gives one response, and has the command's effect if that response is OK. -/
theorem step_of_offered {u : State} {i : Instr} {rest : List PortInput} (hwf : i.wf = true)
    (h : step { s with inputs := .command (encode i) :: rest } = .next u) :
    ∃ r v, u = { v with inputs := rest } ∧ v.responses = s.responses ++ [r] ∧
      (r.status = 0#4 → v = answeredOk (answer s i) (effect s i)) := by
  rw [step_of_command rfl, perform_of_decode (decode_encode hwf)] at h
  rcases exec_next h with ⟨e, _, rfl⟩ | ⟨_, _, rfl⟩
  · exact ⟨⟨errorCode e, 0#32⟩, rejectedWith (errorCode e) s, rfl, rfl, fun hok => absurd hok (errorCode_ne_zero e)⟩
  · refine ⟨⟨0#4, answer s i⟩, _, ?_, by simp, fun _ => rfl⟩
    simp [State.accept, answeredOk]

/-- A run over offered commands only adds to the responses given (R263). -/
theorem responses_of_run_offered (hwf : ∀ i ∈ is, i.wf = true)
    (hrun : run is.length { s with inputs := offered is } = .next t) : ∃ rs, t.responses = s.responses ++ rs := by
  induction is generalizing s with
  | nil =>
    cases hrun
    exact ⟨[], (List.append_nil _).symm⟩
  | cons i is ih =>
    obtain ⟨hi, his⟩ := List.forall_mem_cons.1 hwf
    obtain ⟨u, hstep, hrun'⟩ := step_of_run hrun
    obtain ⟨r, v, rfl, hv, _⟩ := step_of_offered hi hstep
    obtain ⟨rs, hrs⟩ := ih his hrun'
    exact ⟨[r] ++ rs, by rw [hrs, hv, List.append_assoc]⟩

/-- No effect reads the responses given, nor does a sequence of effects (log 2). -/
theorem foldl_effect_mapUnread (f : HostBinding → HostBinding) (g : List PortInput → List PortInput)
    (h : List Response → List Response) (s : State) (is : List Instr) :
    is.foldl effect (s.mapUnread f g h) = (is.foldl effect s).mapUnread f g h := by
  induction is generalizing s with
  | nil => rfl
  | cons i is ih => rw [List.foldl_cons, effect_mapUnread, ih, List.foldl_cons]

/-- A run in which every response is OK is the effects of its commands, one after the other (R263). -/
theorem foldl_effect_of_accepted_run {rs : List Response} (hwf : ∀ i ∈ is, i.wf = true)
    (hrun : run is.length { s with inputs := offered is } = .next t) (hresp : t.responses = s.responses ++ rs)
    (hok : ∀ r ∈ rs, r.status = 0#4) :
    t = { is.foldl effect s with inputs := [], responses := t.responses } := by
  induction is generalizing s rs with
  | nil =>
    cases hrun
    rfl
  | cons i is ih =>
    obtain ⟨hi, his⟩ := List.forall_mem_cons.1 hwf
    obtain ⟨u, hstep, hrun'⟩ := step_of_run hrun
    obtain ⟨r, v, rfl, hv, heffect⟩ := step_of_offered hi hstep
    obtain ⟨rs', hrs'⟩ := responses_of_run_offered his hrun'
    obtain rfl : r :: rs' = rs := by simpa [hv, hresp] using hrs'.symm
    obtain ⟨hr, hok'⟩ := List.forall_mem_cons.1 hok
    cases heffect hr
    refine (ih his hrun' hrs' hok').trans ?_
    rw [answeredOk_eq_mapUnread, foldl_effect_mapUnread]
    rfl

/-- The updates fold their data, one after the other, into CRC, and write CRC and PHASE alone (R134, R135, R138). -/
theorem foldl_effect_of_updates (hupdates : ∀ i ∈ is, i.isUpdate = true) :
    ∃ p, is.foldl effect s =
      { s with crc := foldAll s.table s.crc (is.flatMap (Instr.updateData s.buf)), phase := p } := by
  induction is generalizing s with
  | nil => exact ⟨s.phase, rfl⟩
  | cons i is ih =>
    obtain ⟨hi, his⟩ := List.forall_mem_cons.1 hupdates
    have hframe : effect s i =
        { s with crc := foldAll s.table s.crc (i.updateData s.buf), phase := (effect s i).phase } := by
      rw [← effect_crc_of_isUpdate hi]
      exact (effect_of_isUpdate hi).1
    obtain ⟨p, hp⟩ := ih (s := effect s i) his
    refine ⟨p, ?_⟩
    rw [List.foldl_cons, hp, hframe, List.flatMap_cons, foldAll_append]

/-- A session's accepted updates leave the fold of their data in CRC (R136). -/
theorem crc_of_accepted_updates (hupdates : ∀ i ∈ is, i.isUpdate = true ∧ i.wf = true)
    (hrun : run is.length { s with inputs := offered is } = .next t)
    (hresp : t.responses = s.responses ++ List.replicate is.length okResponse) :
    t.crc = foldAll s.table s.crc (is.flatMap (Instr.updateData s.buf)) := by
  obtain ⟨p, hfold⟩ := foldl_effect_of_updates (s := s) fun i hi => (hupdates i hi).1
  rw [foldl_effect_of_accepted_run (fun i hi => (hupdates i hi).2) hrun hresp (by simp [okResponse]), hfold]

end AcceptedRun

/-- The digest is RESULT's bytes (R161). -/
theorem digest_of_result_eq {s t : State} (h : s.result = t.result) (k : Nat) : s.digest k = t.digest k :=
  congrArg (byteOf · (3 - k)) h

/-! ## The split of the data, and the restarted session -/

/-- Settles O22: both runs leave the fold of the same bytes, and `finalize` latches its complement. -/
theorem anySplitOfTheDataGivesTheSameCrc : Obligations.AnySplitOfTheDataGivesTheSameCrc := by
  intro s t u is js his hjs hdata hrunI hrespI hrunJ hrespJ
  have ht := crc_of_accepted_updates his hrunI hrespI
  have hcrc : u.crc = t.crc := by rw [crc_of_accepted_updates hjs hrunJ hrespJ, ht, hdata]
  have hresult : ~~~u.crc = ~~~t.crc := congrArg (~~~·) hcrc
  exact ⟨ht, hcrc, _, _, exec_of_effect rfl rfl, exec_of_effect rfl rfl, rfl, hresult, digest_of_result_eq hresult⟩

/-- An accepted session from `reset` to `finalize` ends with the fold of its data from SEED in CRC, and the complement
in RESULT, whatever came before (R137, R160). -/
theorem session_of_accepted_run {s t : State} {is : List Instr}
    (hupdates : ∀ i ∈ is, i.isUpdate = true ∧ i.wf = true)
    (hrun : run (is.length + 2) { s with inputs := offered (.reset :: is ++ [.finalize]) } = .next t)
    (hresp : t.responses = s.responses ++ List.replicate (is.length + 2) okResponse) :
    t.crc = foldAll s.table s.seed (is.flatMap (Instr.updateData s.buf)) ∧ t.result = ~~~t.crc := by
  have hwf : ∀ i ∈ Instr.reset :: is ++ [.finalize], i.wf = true := by
    simp only [List.mem_append, List.mem_cons, List.not_mem_nil, or_false]
    rintro i ((rfl | hi) | rfl)
    · rfl
    · exact (hupdates i hi).2
    · rfl
  have hlength : is.length + 2 = (Instr.reset :: is ++ [Instr.finalize]).length := by simp
  obtain ⟨p, hfold⟩ := foldl_effect_of_updates (s := effect s .reset) fun i hi => (hupdates i hi).1
  have ht := foldl_effect_of_accepted_run hwf (hlength ▸ hrun) hresp (by simp [okResponse])
  rw [List.foldl_concat, List.foldl_cons, hfold] at ht
  rw [ht]
  exact ⟨rfl, rfl⟩

/-- Settles O23: each session ends with the fold of the same bytes from the same seed under the same table. -/
theorem restartReproducesTheDigest : Obligations.RestartReproducesTheDigest := by
  intro s s' t t' is js htable hseed his hjs hdata hrun hresp hrun' hresp'
  obtain ⟨hcrc, hresult⟩ := session_of_accepted_run his hrun hresp
  obtain ⟨hcrc', hresult'⟩ := session_of_accepted_run hjs hrun' hresp'
  have hsame : t'.crc = t.crc := by rw [hcrc', hcrc, htable, hseed, hdata]
  have hlatched : t'.result = t.result := by rw [hresult', hresult, hsame]
  exact ⟨hcrc, hsame, hlatched, digest_of_result_eq hlatched⟩

end Sys2Proof.Machine

/-! PROOFS. The statements of 42_finalizer.md: the command finalize (R160), the digest (R161, R162), what changes RESULT
(R163), and the session that stays finalized (R164, R259). -/

namespace Sys2Proof.Machine

/-! ## finalize -/

/-- While RESULT is the complement of CRC, a second `finalize` latches the value that is there (R160). -/
theorem effect_finalize_of_final {s : State} (hinv : s.Inv) (hfinal : s.phase = .final) : effect s .finalize = s :=
  congrArg₂ (fun r p => { s with result := r, phase := p }) (hinv.final hfinal).symm hfinal.symm

/-- Settles O24: the opcode has one legal word, and the complement is the exclusive or with all ones. -/
theorem finalizeLatchesTheComplement : Obligations.FinalizeLatchesTheComplement := by
  refine ⟨fun arg => decode_cmdWord 0x07#8 0#16 arg, onlyLegalWords_of_no_immediate (opc := 0x07#8) (by decide),
    fun s => ?_, fun s hinv hfinal => ?_⟩
  · have hcomplement : s.crc ^^^ 0xFFFFFFFF#32 = ~~~s.crc := BitVec.xor_allOnes
    rw [exec_of_effect rfl rfl, hcomplement]
    rfl
  · rw [exec_of_effect rfl rfl, effect_finalize_of_final hinv hfinal]
    rfl

/-! ## The digest -/

/-- Byte j of a word as a number is its digit at 256^j. -/
theorem toNat_byteOf (v : Word) (j : Nat) : (byteOf v j).toNat = v.toNat / 2 ^ (8 * j) % 256 := by
  rw [byteOf, BitVec.extractLsb'_toNat, Nat.shiftRight_eq_div_pow]

/-- The four bytes of a word, most significant first, are its digits in base 256. -/
theorem toNat_eq_bytes (v : Word) :
    v.toNat = (((byteOf v 3).toNat * 256 + (byteOf v 2).toNat) * 256 + (byteOf v 1).toNat) * 256 +
      (byteOf v 0).toNat := by
  simp only [toNat_byteOf]
  omega

/-- Settles O25: five rows of the index map, and RESULT in base 256. -/
theorem digestIsResultMostSignificantByteFirst : Obligations.DigestIsResultMostSignificantByteFirst :=
  fun s => ⟨exec_readReg_of_some rfl, exec_readReg_of_some rfl, exec_readReg_of_some rfl, exec_readReg_of_some rfl,
    exec_readReg_of_some rfl, toNat_eq_bytes s.result⟩

/-! ## The writers of RESULT -/

/-- Settles O26: idle steps and rejections keep RESULT, of the effects `finalize` alone writes it, and the digest is
RESULT's bytes. -/
theorem resultChangesOnlyAtFinalize : Obligations.ResultChangesOnlyAtFinalize := by
  intro s t hstep
  rcases step_cases s with ⟨_, hidle⟩ | ⟨f, rest, hin, _⟩ | ⟨c, rest, hin, _⟩
  · cases hidle.symm.trans hstep
    exact .inl ⟨rfl, fun _ => rfl⟩
  · exact .inr (.inl ⟨f, rest, hin⟩)
  · rcases step_command_next hin hstep with ⟨e, _, rfl⟩ | ⟨i, hd, _, rfl⟩
    · exact .inl ⟨rfl, fun _ => rfl⟩
    · by_cases hresult : (effect s i).result = s.result
      · exact .inl ⟨hresult, digest_of_result_eq hresult⟩
      · obtain rfl := finalize_of_effect_result_ne hresult
        exact .inr (.inr ⟨c, rest, hin, hd⟩)

/-! ## The finalized session -/

section Finalized

variable {s t : State}

/-- No update is performed in FINAL (R164). -/
theorem isUpdate_eq_false_of_final {i : Instr} (hfinal : s.phase = .final) (hr : rejection s i = none) :
    i.isUpdate = false := by
  cases i with
  | updateImm nm1 v => exact absurd hfinal ((rejection_updateImm_eq_none_iff nm1 v).1 hr)
  | updateBuf off len => exact absurd hfinal ((rejection_updateBuf_eq_none_iff off len).1 hr).1
  | _ => rfl

/-- In FINAL every effect but that of `reset` keeps the session as it is: `finalize` latches the same value again, and
no other command that is performed there writes PHASE, CRC or RESULT. -/
theorem effect_of_final {i : Instr} (hinv : s.Inv) (hfinal : s.phase = .final) (hr : rejection s i = none)
    (hreset : i ≠ .reset) :
    (effect s i).phase = .final ∧ (effect s i).crc = s.crc ∧ (effect s i).result = s.result := by
  by_cases hfinalize : i = .finalize
  · rw [hfinalize, effect_finalize_of_final hinv hfinal]
    exact ⟨hfinal, rfl, rfl⟩
  · have hupdate := isUpdate_eq_false_of_final hfinal hr
    exact ⟨(effect_phase_of_not_writer hreset hfinalize hupdate).trans hfinal,
      effect_crc_of_not_writer hreset hupdate, not_not.1 (mt finalize_of_effect_result_ne hfinalize)⟩

/-- In FINAL a step with a command other than `reset` offered keeps the session as it is. -/
theorem step_of_final {c : Command} {rest : List PortInput} (hinv : s.Inv) (hfinal : s.phase = .final)
    (hin : s.inputs = .command c :: rest) (hreset : decode c ≠ .ok .reset) (hstep : step s = .next t) :
    t.inputs = rest ∧ t.phase = .final ∧ t.crc = s.crc ∧ t.result = s.result := by
  rcases step_command_next hin hstep with ⟨e, _, rfl⟩ | ⟨i, hd, hr, rfl⟩
  · exact ⟨rfl, hfinal, rfl, rfl⟩
  · exact ⟨rfl, effect_of_final hinv hfinal hr fun hi => hreset (hi ▸ hd)⟩

/-- A run over commands other than `reset` keeps a finalized session as it is (R259). -/
theorem run_of_final {cs : List Command} (hinv : s.Inv) (hfinal : s.phase = .final)
    (hin : s.inputs = cs.map .command) (hreset : ∀ c ∈ cs, decode c ≠ .ok .reset)
    (hrun : run cs.length s = .next t) : t.phase = .final ∧ t.crc = s.crc ∧ t.result = s.result := by
  induction cs generalizing s with
  | nil =>
    cases hrun
    exact ⟨hfinal, rfl, rfl⟩
  | cons c cs ih =>
    obtain ⟨hc, hcs⟩ := List.forall_mem_cons.1 hreset
    obtain ⟨u, hstep, hrun⟩ := step_of_run hrun
    obtain ⟨hrest, huphase, hucrc, huresult⟩ := step_of_final hinv hfinal hin hc hstep
    obtain ⟨hphase, hcrc, hresult⟩ := ih (stepKeepsTheInvariant s u hinv hstep) huphase hrest hcs hrun
    exact ⟨hphase, hcrc.trans hucrc, hresult.trans huresult⟩

end Finalized

/-- Settles O27: by induction on the commands, and every update is refused in FINAL. -/
theorem finalizedSessionKeepsItsValue : Obligations.FinalizedSessionKeepsItsValue :=
  ⟨fun cs s _ hinv hfinal hreset hrun =>
      run_of_final (s := { s with inputs := cs.map .command }) (withPort_inv hinv _ _) hfinal rfl hreset hrun,
    fun _ _ => exec_update_of_final⟩

end Sys2Proof.Machine

/-! PROOFS. The statements of 43_buffer_and_control.md: the commands nop (R175), write_buf (R176), write_buf4 (R177),
set_buf_len (R178), read_buf (R179) and clear_err (R181). -/

namespace Sys2Proof.Machine

/-! ## The words of a command with a 16-bit immediate -/

/-- A word with its immediate added to the opcode decodes by its fields (R81, R86). -/
theorem decode_or_immediate (opc : Byte) (imm : Half) (arg : Word) :
    decode ⟨cmdWord opc 0#16 ||| imm.setWidth 32, arg⟩ = decodeFields opc imm arg := by
  rw [← cmdWord_eq_or, decode_cmdWord]

/-- RSV is zero in every legal word (R87). -/
theorem onlyLegalWords_rsv (opc : Byte) : onlyLegalWords opc (fun w => w.extractLsb' 16 8 = 0#8) :=
  onlyLegalWords_of fun _ _ hd _ => (decode_ok hd).1

/-! ## nop and clear_err -/

/-- Settles O28: the opcode has one legal word, and the command has no effect. -/
theorem nopChangesNothing : Obligations.NopChangesNothing :=
  ⟨fun arg => decode_cmdWord 0x00#8 0#16 arg, onlyLegalWords_of_no_immediate (opc := 0x00#8) (by decide),
    fun _ => exec_of_effect rfl rfl⟩

/-- Settles O35: the opcode has one legal word, and the command's effect is on the error record alone. -/
theorem clearErrClearsTheRecord : Obligations.ClearErrClearsTheRecord :=
  ⟨fun arg => decode_cmdWord 0x0D#8 0#16 arg, onlyLegalWords_of_no_immediate (opc := 0x0D#8) (by decide),
    fun _ => exec_of_effect rfl rfl⟩

/-! ## write_buf and write_buf4 -/

/-- A byte widened to a word is the word's byte 0. -/
theorem bytesOf_one_setWidth (b : Byte) : bytesOf 1 (b.setWidth 32) = [b] := by
  have hbyte : byteOf (b.setWidth 32) 0 = b := by simp [byteOf_eq_shift]
  exact congrArg (fun c : Byte => [c]) hbyte

/-- Byte j of a word written at address a reads back at a + j (R52). -/
theorem readByte_writeBytes_bytesOf {m : Memory} (hm : m.wf) (a : Nat) {n j : Nat} (hj : j < n) (v : Word) :
    (m.writeBytes a (bytesOf n v)).readByte (a + j) = byteOf v j := by
  simp [readByte_writeBytes hm, hj, bytesOf]

/-- An address outside the bytes written reads as before. -/
theorem readByte_writeBytes_outside {m : Memory} (hm : m.wf) {a x : Nat} {bs : List Byte}
    (hx : x < a ∨ a + bs.length ≤ x) : (m.writeBytes a bs).readByte x = m.readByte x := by
  rw [readByte_writeBytes hm, dif_neg (by omega)]

/-- Settles O29: the effect writes the operand at A, and RANGE is the only rejection. -/
theorem writeBufWritesOneByte : Obligations.WriteBufWritesOneByte := by
  refine ⟨fun a arg => decode_or_immediate 0x08#8 a arg, onlyLegalWords_rsv 0x08#8, fun a b s hwf hlt => ?_,
    fun a b s hge => exec_of_rejection (i := .writeBuf a b) (if_pos hge)⟩
  refine ⟨s.buf.writeByte a.toNat b, ?_, ?_, fun x hx => ?_⟩
  · have hr : rejection s (.writeBuf a b) = none := if_neg (Nat.not_le.2 hlt)
    rw [exec_of_effect hr rfl, effect, bytesOf_one_setWidth]
    rfl
  · rw [readByte_writeByte hwf, if_pos rfl]
  · rw [readByte_writeByte hwf, if_neg hx.symm]

/-- Settles O30: the effect writes the operand's four bytes from A on, and RANGE is the only rejection. -/
theorem writeBuf4WritesFourBytes : Obligations.WriteBuf4WritesFourBytes :=
  ⟨fun a arg => decode_or_immediate 0x09#8 a arg, onlyLegalWords_rsv 0x09#8,
    fun a w s hwf hle => ⟨s.buf.writeBytes a.toNat (bytesOf 4 w), exec_of_effect (if_neg (Nat.not_lt.2 hle)) rfl,
      fun _ hj => readByte_writeBytes_bytesOf hwf a.toNat hj w, fun _ hx => readByte_writeBytes_outside hwf hx⟩,
    fun a w _ hgt => exec_of_rejection (i := .writeBuf4 a w) (if_pos hgt)⟩

/-! ## set_buf_len -/

/-- Settles O31: a length up to BUF_SIZE fits BUF_LEN's 16 bits, and RANGE is the only rejection. -/
theorem setBufLenWritesTheLength : Obligations.SetBufLenWritesTheLength := by
  refine ⟨fun arg => decode_cmdWord 0x0A#8 0#16 arg, onlyLegalWords_of_no_immediate (opc := 0x0A#8) (by decide),
    fun l s hle => ⟨l.setWidth 16, ?_, exec_of_effect (if_neg (Nat.not_lt.2 hle)) rfl⟩,
    fun l s hgt => exec_of_rejection (i := .setBufLen l) (if_pos hgt)⟩
  have hfits : l.toNat < 2 ^ 16 := lt_of_le_of_lt hle s.cfg.bufSize.isLt
  rw [BitVec.toNat_setWidth, Nat.mod_eq_of_lt hfits]

/-! ## read_buf -/

/-- Settles O32: the command answers the byte and has no effect, and RANGE is the only rejection. -/
theorem readBufAnswersOneByte : Obligations.ReadBufAnswersOneByte :=
  ⟨fun a arg => decode_or_immediate 0x0C#8 a arg, onlyLegalWords_rsv 0x0C#8, fun _ _ => exec_readBuf_of_lt,
    fun a _ hge => exec_of_rejection (i := .readBuf a) (if_pos hge)⟩

end Sys2Proof.Machine

/-! PROOFS. The statements of 44_oneshot_facade.md: the one-shot sequences (R200 to R203) and the update of the
streaming API (R204). -/

namespace Sys2Proof.Machine

/-! ## Sequences that are performed whole -/

/-- The commands are performed one after the other, none rejected and each with DATA 0, and lead from the first state to
the second, the port apart. -/
inductive Performed : State → List Instr → State → Prop where
  | nil (s : State) : Performed s [] s
  | cons {s t : State} {i : Instr} {is : List Instr} (hwf : i.wf = true) (hr : rejection s i = none)
      (hd : answer s i = 0#32) (h : Performed (effect s i) is t) : Performed s (i :: is) t

section Performed

variable {s t u : State} {i : Instr} {is js : List Instr}

theorem performed_singleton (hwf : i.wf = true) (hr : rejection s i = none) (hd : answer s i = 0#32) :
    Performed s [i] (effect s i) :=
  .cons hwf hr hd (.nil _)

theorem Performed.append (h : Performed s is t) (h' : Performed t js u) : Performed s (is ++ js) u := by
  induction h with
  | nil s => exact h'
  | cons hwf hr hd _ ih => exact .cons hwf hr hd (ih h')

/-- The step of an offered command that is performed, whatever the responses given before it (log 2). -/
theorem step_of_effect (hinv : s.Inv) (hwf : i.wf = true) (hr : rejection s i = none) (rest : List PortInput)
    (rs : List Response) :
    step { s with inputs := .command (encode i) :: rest, responses := rs } =
      .next { effect s i with inputs := rest, responses := rs ++ [⟨0#4, answer s i⟩] } := by
  have hexec := exec_of_effect (s := s.mapUnread id (fun _ => rest) fun _ => rs) (i := i) (by simpa using hr)
    (by simpa using reachesHole_of_bufLen hinv.bufLen hr)
  rw [answer_mapUnread, effect_mapUnread] at hexec
  rw [step_of_command rfl, perform_of_decode (decode_encode hwf)]
  exact hexec

/-- A sequence that is performed whole runs to its last state, and every response is OK with DATA 0. -/
theorem run_of_performed (h : Performed s is t) (hinv : s.Inv) (rest : List PortInput) (rs : List Response) :
    run is.length { s with inputs := offered is ++ rest, responses := rs } =
      .next { t with inputs := rest, responses := rs ++ List.replicate is.length okResponse } := by
  induction h generalizing rs with
  | nil s => simp [offered]
  | cons hwf hr hd _ ih =>
    refine (run_succ _ (step_of_effect hinv hwf hr _ rs)).trans ((ih (effect_inv hinv hr) _).trans ?_)
    rw [hd, List.length_cons, List.replicate_succ, List.append_assoc]
    rfl

theorem run_one (s : State) : run 1 s = step s := by
  rw [run_eq]
  cases step s <;> rfl

/-- A run over a sequence that is performed whole and one more command ends with that command's own answer. -/
theorem run_of_performed_concat (h : Performed s is t) (hinv : s.Inv) (hwf : i.wf = true) :
    run (is ++ [i]).length { s with inputs := offered (is ++ [i]) } =
      exec i { t with
        inputs := []
        responses := s.responses ++ List.replicate ((is ++ [i]).length - 1) okResponse } := by
  have hoffered : offered (is ++ [i]) = offered is ++ [.command (encode i)] := List.map_append
  rw [hoffered, List.length_append, List.length_singleton, Nat.add_sub_cancel,
    run_add is.length 1 (run_of_performed h hinv [.command (encode i)] s.responses), run_one, step_of_command rfl,
    perform_of_decode (decode_encode hwf)]
  rfl

end Performed

/-! ## The parts of the one-shot sequences -/

/-- A number that fits w bits is the word's value. -/
theorem toNat_ofNat_of_lt {w n : Nat} (h : n < 2 ^ w) : (BitVec.ofNat w n).toNat = n := by
  rw [BitVec.toNat_ofNat, Nat.mod_eq_of_lt h]

/-- s in a session just opened with the table of P and at the register S (R200). -/
def State.withSession (P S : Word) (s : State) : State :=
  { s with seed := S, crc := S, phase := .opened, poly := P, table := tableOf P, tblPoly := P }

section Parts

variable {s : State}

/-- After `start S` the build is not refused, whatever session was running before: PHASE is OPEN (R113, R200). -/
theorem performed_openSession (s : State) (P S : Word) : Performed s (openSession P S) (s.withSession P S) :=
  .cons rfl rfl rfl (.cons rfl rfl rfl (.cons rfl rfl rfl
    (.cons rfl (rejection_buildTable_eq_none (by simp [effect])) rfl (.nil _))))

/-- Where the table of P is held, the same session opens without `build_table` (R200). -/
theorem performed_openSession_of_held {P : Word} (htable : s.table = tableOf s.tblPoly) (hheld : s.tblPoly = P)
    (S : Word) : Performed s (startSession S ++ [.setPoly P]) (s.withSession P S) := by
  have hsession : s.withSession P S = { s with seed := S, crc := S, phase := .opened, poly := P } := by
    rw [State.withSession, ← hheld, ← htable]
  rw [hsession]
  exact .cons rfl rfl rfl (.cons rfl rfl rfl (.cons rfl rfl rfl (.nil _)))

/-- `write_buf` below BUF_SIZE is performed (R176). -/
theorem performed_writeBuf {a : Nat} (h : a < s.bufSize) (b : Byte) :
    Performed s [.writeBuf (BitVec.ofNat 16 a) b] { s with buf := s.buf.writeBytes a [b] } := by
  have ha : (BitVec.ofNat 16 a).toNat = a := toNat_ofNat_of_lt (h.trans s.cfg.bufSize.isLt)
  have hr : rejection s (.writeBuf (BitVec.ofNat 16 a) b) = none := if_neg (by rw [ha]; exact Nat.not_le.2 h)
  have heffect := performed_singleton rfl hr rfl
  rwa [effect, ha, bytesOf_one_setWidth] at heffect

/-- `write_buf4` is performed where its four bytes end by BUF_SIZE, and they are those packed into its word (R177). -/
theorem performed_writeBuf4 {a : Nat} (h : a + 4 ≤ s.bufSize) (b0 b1 b2 b3 : Byte) :
    Performed s [.writeBuf4 (BitVec.ofNat 16 a) (packWord b0 b1 b2 b3)]
      { s with buf := s.buf.writeBytes a [b0, b1, b2, b3] } := by
  have hsize : s.bufSize < 2 ^ 16 := s.cfg.bufSize.isLt
  have ha : (BitVec.ofNat 16 a).toNat = a := toNat_ofNat_of_lt (by omega)
  have hr : rejection s (.writeBuf4 (BitVec.ofNat 16 a) (packWord b0 b1 b2 b3)) = none :=
    if_neg (by rw [ha]; exact Nat.not_lt.2 h)
  have heffect := performed_singleton rfl hr rfl
  rwa [effect, ha, bytesOf_packWord] at heffect

/-- `load_bytes` up to BUF_SIZE writes its bytes from its address on (R90, R176, R177). -/
theorem performed_loadBytes {a : Nat} {bs : List Byte} (h : a + bs.length ≤ s.bufSize) :
    Performed s (loadBytes a bs) { s with buf := s.buf.writeBytes a bs } := by
  induction a, bs using loadBytes.induct generalizing s with
  | case1 a => exact .nil s
  | case2 a b0 b1 b2 b3 bs ih =>
    simp only [List.length_cons] at h
    have hrest : a + 4 + bs.length ≤ s.bufSize := by omega
    exact (performed_writeBuf4 (by omega) b0 b1 b2 b3).append (ih hrest)
  | case3 a b bs hshort ih =>
    simp only [List.length_cons] at h
    have hrest : a + 1 + bs.length ≤ s.bufSize := by omega
    rw [loadBytes.eq_3 _ _ _ hshort]
    exact (performed_writeBuf (by omega) b).append (ih hrest)

/-- s with the bytes in the buffer from address 0 on, and BUF_LEN their number (R200, R204). -/
def State.withBuffer (bs : List Byte) (s : State) : State :=
  { s with buf := s.buf.writeBytes 0 bs, bufLen := BitVec.ofNat 16 bs.length }

theorem State.withBuffer_bufLen {bs : List Byte} (h : bs.length ≤ s.bufSize) :
    (s.withBuffer bs).bufLen.toNat = bs.length :=
  toNat_ofNat_of_lt (h.trans_lt s.cfg.bufSize.isLt)

/-- Up to BUF_SIZE bytes are loaded at address 0, and BUF_LEN is set to their number (R177, R178). -/
theorem performed_loadBuffer {bs : List Byte} (h : bs.length ≤ s.bufSize) :
    Performed s (loadBytes 0 bs ++ [.setBufLen (BitVec.ofNat 32 bs.length)]) (s.withBuffer bs) := by
  have hsize : s.bufSize < 2 ^ 16 := s.cfg.bufSize.isLt
  have hlen : (BitVec.ofNat 32 bs.length).setWidth 16 = BitVec.ofNat 16 bs.length :=
    BitVec.setWidth_ofNat_of_le (by decide) _
  rw [State.withBuffer, ← hlen]
  refine (performed_loadBytes (by omega)).append (performed_singleton rfl (if_neg ?_) rfl)
  rw [toNat_ofNat_of_lt (by omega)]
  exact Nat.not_lt.2 h

/-- A slice of the bytes written at address 0 reads back. -/
theorem readBytes_writeBytes_slice {m : Memory} (hm : m.wf) {bs : List Byte} {off len : Nat}
    (h : off + len ≤ bs.length) : (m.writeBytes 0 bs).readBytes off len = (bs.drop off).take len := by
  refine List.ext_getElem (by simp; omega) fun j hj _ => ?_
  rw [length_readBytes] at hj
  have hin : off + j < bs.length := by omega
  simp [readBytes_eq, readByte_writeBytes hm, hin]

/-- An update through the buffer is its load and then the one command that folds (R204). -/
theorem engineUpdate_eq_concat (bs : List Byte) (off : Half) (len : Word) :
    engineUpdate bs off len =
      loadBytes 0 bs ++ [.setBufLen (BitVec.ofNat 32 bs.length)] ++ [.updateBuf off len] :=
  (List.append_assoc (loadBytes 0 bs) [.setBufLen _] [.updateBuf off len]).symm

/-- s after a chunk through the buffer (R200, R202). -/
def State.withChunk (bs : List Byte) (s : State) : State :=
  { s.withBuffer bs with
    crc := foldAll s.table s.crc bs
    phase := if bs.length > 0 then .active else s.phase }

/-- A chunk leaves the session open for more. -/
theorem State.withChunk_phase_ne_final (hopen : s.phase ≠ .final) (bs : List Byte) :
    (s.withChunk bs).phase ≠ .final := by
  rw [State.withChunk]
  split
  · exact nofun
  · exact hopen

/-- A chunk of at most BUF_SIZE bytes is folded through the buffer whole (R135, R202). -/
theorem performed_foldThroughBuffer {bs : List Byte} (hbuf : s.buf.wf) (hopen : s.phase ≠ .final)
    (h : bs.length ≤ s.bufSize) : Performed s (foldThroughBuffer bs) (s.withChunk bs) := by
  have hsize : s.bufSize < 2 ^ 16 := s.cfg.bufSize.isLt
  have hlen32 : (BitVec.ofNat 32 bs.length).toNat = bs.length := toNat_ofNat_of_lt (by omega)
  have hread : (s.withBuffer bs).buf.readBytes 0 bs.length = bs := readBytes_writeBytes hbuf 0 bs
  have hupdate : rejection (s.withBuffer bs) (.updateBuf 0#16 (BitVec.ofNat 32 bs.length)) = none :=
    (rejection_updateBuf_eq_none_iff _ _).2 ⟨hopen, by simp [State.withBuffer_bufLen h, hlen32]⟩
  have hall := (performed_loadBuffer h).append (performed_singleton rfl hupdate rfl)
  rw [← engineUpdate_eq_concat] at hall
  simp only [effect, hlen32, BitVec.toNat_ofNat, Nat.zero_mod, hread] at hall
  exact hall

/-- Chunks through the buffer are folded into CRC in order (R202). -/
theorem performed_chunks {chunks : List (List Byte)} (hbuf : s.buf.wf) (hopen : s.phase ≠ .final)
    (h : ∀ bs ∈ chunks, bs.length ≤ s.bufSize) :
    ∃ t, Performed s (chunks.flatMap foldThroughBuffer) t ∧ t.crc = foldAll s.table s.crc chunks.flatten := by
  induction chunks generalizing s with
  | nil => exact ⟨s, .nil s, rfl⟩
  | cons bs chunks ih =>
    obtain ⟨hbs, hchunks⟩ := List.forall_mem_cons.1 h
    obtain ⟨t, hrest, hcrc⟩ := ih (s := s.withChunk bs) (wf_writeBytes hbuf 0 bs)
      (State.withChunk_phase_ne_final hopen bs) hchunks
    refine ⟨t, (performed_foldThroughBuffer hbuf hopen hbs).append hrest, ?_⟩
    rw [List.flatten_cons, foldAll_append]
    exact hcrc

/-- The first bytes of a packed word. -/
theorem bytesOf_packWord_take {n : Nat} (hn : n ≤ 4) (b0 b1 b2 b3 : Byte) :
    bytesOf n (packWord b0 b1 b2 b3) = [b0, b1, b2, b3].take n := by
  rw [bytesOf_prefix hn, bytesOf_packWord]

/-- The groups of `update_bytes` hold its bytes in order (R90, R134). -/
theorem updateData_updateBytes (m : Memory) (bs : List Byte) :
    (updateBytes bs).flatMap (Instr.updateData m) = bs := by
  induction bs using updateBytes.induct with
  | case1 => rfl
  | case2 b0 => exact (List.append_nil _).trans (bytesOf_packWord_take (n := 1) (by decide) ..)
  | case3 b0 b1 => exact (List.append_nil _).trans (bytesOf_packWord_take (n := 2) (by decide) ..)
  | case4 b0 b1 b2 => exact (List.append_nil _).trans (bytesOf_packWord_take (n := 3) (by decide) ..)
  | case5 b0 b1 b2 b3 bs ih => exact congrArg₂ (· ++ ·) (bytesOf_packWord b0 b1 b2 b3) ih

theorem updateImm_of_mem_updateBytes {bs : List Byte} : ∀ i ∈ updateBytes bs, ∃ nm1 v, i = .updateImm nm1 v := by
  induction bs using updateBytes.induct with
  | case1 => nofun
  | case2 | case3 | case4 => exact List.forall_mem_singleton.2 ⟨_, _, rfl⟩
  | case5 b0 b1 b2 b3 bs ih => exact List.forall_mem_cons.2 ⟨⟨_, _, rfl⟩, ih⟩

/-- Any number of `update_imm` are performed in a session that is not finalized (R134). -/
theorem performed_of_updateImms {is : List Instr} (hopen : s.phase ≠ .final)
    (h : ∀ i ∈ is, i.wf = true ∧ ∃ nm1 v, i = .updateImm nm1 v) : Performed s is (is.foldl effect s) := by
  induction is generalizing s with
  | nil => exact .nil s
  | cons i is ih =>
    obtain ⟨⟨hwf, nm1, v, rfl⟩, his⟩ := List.forall_mem_cons.1 h
    exact .cons hwf ((rejection_updateImm_eq_none_iff nm1 v).2 hopen) rfl (ih nofun his)

/-- `update_bytes` folds its bytes into CRC, however many they are (R202). -/
theorem performed_updateBytes (hopen : s.phase ≠ .final) (bs : List Byte) :
    ∃ t, Performed s (updateBytes bs) t ∧ t.crc = foldAll s.table s.crc bs := by
  have hupdates : ∀ i ∈ updateBytes bs, i.isUpdate = true := fun i hi => by
    obtain ⟨_, _, rfl⟩ := updateImm_of_mem_updateBytes i hi
    rfl
  obtain ⟨p, hfold⟩ := foldl_effect_of_updates (s := s) hupdates
  refine ⟨_, performed_of_updateImms hopen
    fun i hi => ⟨wf_of_mem_updateBytes i hi, updateImm_of_mem_updateBytes i hi⟩, ?_⟩
  rw [hfold, updateData_updateBytes]

end Parts

/-! ## The one-shot sequences -/

/-- Every one-shot sequence is a sequence that is performed whole, then `finalize` and the read of RESULT, which answers
the complement of the CRC it has come to (R160, R200). -/
theorem run_of_oneShot {s u : State} {is : List Instr} (h : Performed s is u) (hinv : s.Inv) :
    run (is ++ [Instr.finalize] ++ readResult).length
      { s with inputs := offered (is ++ [Instr.finalize] ++ readResult) } =
      .next { u with
        result := ~~~u.crc
        phase := .final
        inputs := []
        responses := s.responses ++ List.replicate ((is ++ [Instr.finalize] ++ readResult).length - 1) okResponse ++
          [⟨0#4, ~~~u.crc⟩] } := by
  have hfinal := h.append (performed_singleton (i := .finalize) rfl rfl rfl)
  rw [readResult, run_of_performed_concat hfinal hinv rfl, exec_readReg_of_some (v := ~~~u.crc) rfl]
  rfl

/-- Settles O50: the sequence opens the session, folds the buffer and reads the result; where the table of P is held,
the shorter opening comes to the same session. -/
theorem oneShotComputeFromAnyState : Obligations.OneShotComputeFromAnyState := by
  refine ⟨fun s P S bs hinv hlen => ?_, fun s P S bs hinv hheld hlen => ?_⟩
  · have hfold := performed_foldThroughBuffer (s := s.withSession P S) hinv.bufWf nofun hlen
    refine ⟨_, run_of_oneShot ((performed_openSession s P S).append hfold) hinv, rfl, rfl, rfl, rfl, rfl, rfl, ?_,
      fun j hj => ?_⟩
    · exact State.withBuffer_bufLen hlen
    · exact (readByte_writeBytes hinv.bufWf 0 bs j).trans (by simp [hj])
  · have hfold := performed_foldThroughBuffer (s := s.withSession P S) hinv.bufWf nofun hlen
    exact ⟨_, run_of_oneShot ((performed_openSession_of_held hinv.table hheld S).append hfold) hinv, rfl⟩

/-- Settles O51: each variant folds the same bytes into the register that opening the session has set to the seed. -/
theorem oneShotVariantsAgree : Obligations.OneShotVariantsAgree := by
  refine ⟨fun s P S bs hinv => ?_, fun s P S chunks hinv hlen => ?_⟩
  · obtain ⟨u, hfold, hcrc⟩ := performed_updateBytes (s := s.withSession P S) nofun bs
    exact ⟨_, run_of_oneShot ((performed_openSession s P S).append hfold) hinv, by rw [hcrc]; rfl⟩
  · obtain ⟨u, hfold, hcrc⟩ := performed_chunks (s := s.withSession P S) hinv.bufWf nofun hlen
    exact ⟨_, run_of_oneShot ((performed_openSession s P S).append hfold) hinv, by rw [hcrc]; rfl⟩

/-- Settles O52: `reset` alone leaves the reset state with the session of the default polynomial and seed. -/
theorem defaultComputeFromReset : Obligations.DefaultComputeFromReset := by
  refine ⟨fun _ => rfl, fun _ _ => rfl, fun cfg bs hcfg hlen => ?_⟩
  have hopen : Performed (State.resetWith cfg [] []) [.reset]
      ((State.resetWith cfg [] []).withSession defaultPoly defaultSeed) := performed_singleton rfl rfl rfl
  have hfold := performed_foldThroughBuffer
    (s := (State.resetWith cfg [] []).withSession defaultPoly defaultSeed) wf_nil nofun hlen
  exact ⟨_, run_of_oneShot (hopen.append hfold) (resetWith_inv hcfg [] []), rfl⟩

/-! ## The update of the streaming API -/

theorem rejection_updateBuf_of_gt {s : State} {off : Half} {len : Word} (hopen : s.phase ≠ .final)
    (hgt : s.bufLen.toNat < off.toNat + len.toNat) : rejection s (.updateBuf off len) = some .range := by
  rw [rejection, if_neg hopen, if_pos hgt]

/-- Settles O54: with the bytes loaded and BUF_LEN their number, the bounds contract is the range check of `update_buf`,
the last command. -/
theorem engineUpdateChecksTheSourceBounds : Obligations.EngineUpdateChecksTheSourceBounds := by
  intro s bs off len hinv hopen hlen
  have hrun := run_of_performed_concat (performed_loadBuffer hlen) hinv (i := .updateBuf off len) rfl
  rw [← engineUpdate_eq_concat] at hrun
  by_cases hrange : off.toNat + len.toNat ≤ bs.length
  · have hr : rejection (s.withBuffer bs) (.updateBuf off len) = none :=
      (rejection_updateBuf_eq_none_iff off len).2 ⟨hopen, (State.withBuffer_bufLen hlen).symm ▸ hrange⟩
    refine ⟨_, hrun.trans (exec_of_effect hr (decide_eq_false (Nat.not_lt.2 (hrange.trans hlen)))), ?_, fun _ => ?_,
      fun hout => absurd hrange (Nat.not_le.2 hout)⟩
    · rw [if_pos hrange]
      rfl
    · exact congrArg (foldAll s.table s.crc) (readBytes_writeBytes_slice hinv.bufWf hrange)
  · have hr : rejection (s.withBuffer bs) (.updateBuf off len) = some .range :=
      rejection_updateBuf_of_gt hopen ((State.withBuffer_bufLen hlen).symm ▸ Nat.not_le.1 hrange)
    refine ⟨_, hrun.trans (exec_of_rejection hr), ?_, fun hin => absurd hin hrange, fun _ => ⟨rfl, rfl⟩⟩
    rw [if_neg hrange]
    rfl

end Sys2Proof.Machine

/-! PROOFS. The statements of 60_exceptions.md: the causes of a rejection and their order (R221, R224), what a rejection
leaves unchanged (R222), and the idle block (R233). -/

namespace Sys2Proof.Machine

/-! ## The idle block -/

/-- Settles O3: with nothing offered the step is idle, and an idle step gives the state it found. -/
theorem idleBlockKeepsItsState : Obligations.IdleBlockKeepsItsState := by
  refine ⟨fun s hin => step_of_idle hin, fun s t hstep hne => ?_⟩
  rcases step_next hstep with ⟨_, hidle⟩ | ⟨f, rest, hin, _⟩ | ⟨c, rest, hin, _⟩
  · exact absurd hidle hne
  · exact .inr ⟨f, rest, hin⟩
  · exact .inl ⟨c, rest, hin⟩

/-! ## What a rejection changes -/

/-- Settles O38: the step is a rejection, with the code it answers, or an effect, which answers OK. -/
theorem rejectionChangesTheErrorRecordAlone : Obligations.RejectionChangesTheErrorRecordAlone := by
  intro s t c rest r hin hstep hresp hstatus
  rcases step_command_next hin hstep with ⟨e, _, rfl⟩ | ⟨i, _, _, rfl⟩
  · obtain rfl : ⟨errorCode e, 0#32⟩ = r := by simpa using hresp
    rfl
  · obtain rfl : ⟨0#4, answer s i⟩ = r := by simpa using hresp
    exact absurd rfl hstatus

/-! ## The causes of a rejection -/

section Causes

variable {s : State} {i : Instr} {code : Nibble}

/-- The causes of R221 exclude each other: the error of each is the one the command is rejected with (R224). -/
theorem rejection_of_errorCause (h : ErrorCause s i code) : ∃ e, rejection s i = some e ∧ errorCode e = code := by
  cases h with
  | tableInUse hactive hne => exact ⟨.tableInUse, rejection_buildTable_in_use hactive hne, rfl⟩
  | closedImm nm1 v hfinal => exact ⟨.closed, if_pos hfinal, rfl⟩
  | closedBuf off len hfinal => exact ⟨.closed, if_pos hfinal, rfl⟩
  | rangeBuf off len hopen hgt => exact ⟨.range, rejection_updateBuf_of_gt hopen hgt, rfl⟩
  | rangeWrite a b hge => exact ⟨.range, if_pos hge, rfl⟩
  | rangeWrite4 a w hgt => exact ⟨.range, if_pos hgt, rfl⟩
  | rangeLength l hgt => exact ⟨.range, if_pos hgt, rfl⟩
  | rangeRead a hge => exact ⟨.range, if_pos hge, rfl⟩
  | badReg idx hidx => exact ⟨.badReg, if_pos ((readIndex_none_iff s idx).2 hidx), rfl⟩

/-- Every error a command is rejected with has a cause of R221. -/
theorem errorCause_of_rejection {e : ErrorKind} (h : rejection s i = some e) : ErrorCause s i (errorCode e) := by
  cases i with
  | nop | setPoly p | setSeed v | reset | finalize | clearErr => cases h
  | buildTable =>
    obtain ⟨⟨hactive, hne⟩, ⟨⟩⟩ := Option.ite_none_right_eq_some.1 h
    exact .tableInUse hactive hne
  | updateImm nm1 v =>
    obtain ⟨hfinal, ⟨⟩⟩ := Option.ite_none_right_eq_some.1 h
    exact .closedImm nm1 v hfinal
  | updateBuf off len =>
    by_cases hfinal : s.phase = .final
    · cases (if_pos hfinal).symm.trans h
      exact .closedBuf off len hfinal
    · obtain ⟨hgt, ⟨⟩⟩ := Option.ite_none_right_eq_some.1 ((if_neg hfinal).symm.trans h)
      exact .rangeBuf off len hfinal hgt
  | writeBuf a b =>
    obtain ⟨hge, ⟨⟩⟩ := Option.ite_none_right_eq_some.1 h
    exact .rangeWrite a b hge
  | writeBuf4 a w =>
    obtain ⟨hgt, ⟨⟩⟩ := Option.ite_none_right_eq_some.1 h
    exact .rangeWrite4 a w hgt
  | setBufLen l =>
    obtain ⟨hgt, ⟨⟩⟩ := Option.ite_none_right_eq_some.1 h
    exact .rangeLength l hgt
  | readReg idx =>
    obtain ⟨hnone, ⟨⟩⟩ := Option.ite_none_right_eq_some.1 h
    exact .badReg idx ((readIndex_none_iff s idx).1 hnone)
  | readBuf a =>
    obtain ⟨hge, ⟨⟩⟩ := Option.ite_none_right_eq_some.1 h
    exact .rangeRead a hge

/-- The causes of R221, in the order of R224, are the rejection of the decoded command. -/
theorem errorCause_iff : ErrorCause s i code ↔ ∃ e, rejection s i = some e ∧ errorCode e = code :=
  ⟨rejection_of_errorCause, fun ⟨_, hr, hcode⟩ => hcode ▸ errorCause_of_rejection hr⟩

/-- A rejection shows its code in the response. -/
theorem rejectedWith_inj {k : Nibble} : rejectedWith k s = rejectedWith code s ↔ k = code :=
  ⟨fun h => by simpa using congrArg State.responses h, congrArg (rejectedWith · s)⟩

/-- A command that was performed answers OK, and one rejected with an error code does not (R220). -/
theorem answeredOk_effect_ne_rejectedWith (hcode : code ≠ 0#4) (d : Word) :
    answeredOk d (effect s i) ≠ rejectedWith code s := fun h => by
  have hstatus : 0#4 = code ∧ d = 0#32 := by simpa using congrArg State.responses h
  exact hcode hstatus.1.symm

/-- A decoded command is rejected with an error code exactly for a cause with that code (R221, R224). -/
theorem exec_eq_rejectedWith_iff (hb : s.bufLen.toNat ≤ s.bufSize) (hcode : code ≠ 0#4) :
    exec i s = .next (rejectedWith code s) ↔ ErrorCause s i code := by
  rw [errorCause_iff]
  rcases exec_next_cases i hb with ⟨e, hr, he⟩ | ⟨hr, he⟩
  · simp [hr, he, rejectedWith_inj]
  · simp [hr, he, answeredOk_effect_ne_rejectedWith hcode]

/-- A decoded command that meets no cause is performed (R221). -/
theorem exec_of_no_errorCause (hb : s.bufLen.toNat ≤ s.bufSize) (hnone : ∀ k, ¬ ErrorCause s i k) :
    exec i s = .next (answeredOk (answer s i) (effect s i)) := by
  rcases exec_next_cases i hb with ⟨e, hr, _⟩ | ⟨_, he⟩
  · exact absurd (errorCause_of_rejection hr) (hnone _)
  · exact he

end Causes

/-- Settles O39: a word that does not decode is rejected with ILLEGAL alone, and a decoded command by its causes. -/
theorem rejectionCausesAndPriority : Obligations.RejectionCausesAndPriority := by
  intro s c hinv
  refine ⟨fun code hcode => ?_, fun i hd hnone => ?_⟩
  · cases hd : decode c with
    | error why => simp [perform_illegal hd, rejectedWith_inj, eq_comm]
    | ok i => simp [perform_of_decode hd, exec_eq_rejectedWith_iff hinv.bufLen hcode]
  · exact ⟨_, answer s i, (perform_of_decode hd s).trans (exec_of_no_errorCause hinv.bufLen hnone), by simp⟩

end Sys2Proof.Machine

/-! PROOFS. The statements of 70_reset_and_hazards.md: hardware reset (R250, R251), the hazards of a staged polynomial
(R256), a new seed (R257) and an active session (R258), the cycle counts (R261) and the reference port (R255, R262). -/

namespace Sys2Proof.Machine

/-! ## Hardware reset -/

theorem State.digest_of_result_zero {s : State} (h : s.result = 0#32) (k : Nat) : s.digest k = 0#8 := by
  rw [State.digest, h, byteOf, BitVec.extractLsb'_zero]

/-- STATUS is 0 in an OPEN session with the error record clear (R34). -/
theorem State.statusView_of_opened {s : State} (hphase : s.phase = .opened) (herr : s.err = false)
    (hcode : s.errCode = 0#4) : s.statusView = 0#32 := by
  rw [State.statusView, hphase, herr, hcode]
  rfl

/-- CONFIG shows BUF_SIZE (R36). -/
theorem State.configView_toNat (s : State) : s.configView.toNat = s.bufSize :=
  BitVec.toNat_setWidth_of_le (by decide)

/-- Settles O1: `resetWith` writes each element out, and the views follow. -/
theorem resetGivesEveryElementItsValue : Obligations.ResetGivesEveryElementItsValue := by
  intro cfg inputs responses s hs
  obtain ⟨cfg, inputs, responses, rfl⟩ : ∃ cfg inputs responses, s = State.resetWith cfg inputs responses :=
    hs.elim (⟨_, _, _, ·⟩) (⟨_, _, _, ·⟩)
  exact ⟨rfl, rfl, rfl, rfl, rfl, tableAt_tableOf defaultPoly, rfl, readByte_nil, rfl, rfl, rfl,
    State.digest_of_result_zero rfl, State.statusView_of_opened rfl rfl rfl, State.configView_toNat _⟩

/-- Settles O2: the step that takes the entry of rst_n is the reset. -/
theorem hardwareResetFromAnyState : Obligations.HardwareResetFromAnyState :=
  fun _ _ _ hin => step_of_hardwareReset hin

/-- Settles O43: State.reset is the reset state of the reference configuration. -/
theorem resetSatisfiesTheInvariant : Obligations.ResetSatisfiesTheInvariant :=
  ⟨resetWith_inv (by decide) [] [], fun _ _ _ hcfg => resetWith_inv hcfg _ _⟩

/-! ## Runs over commands -/

section Commands

variable {s t : State} {c : Command} {rest : List PortInput}

/-- A transaction takes its own command from the port and no other (R63). -/
theorem inputs_of_step_command (hin : s.inputs = .command c :: rest) (hstep : step s = .next t) : t.inputs = rest := by
  rcases step_command_next hin hstep with ⟨_, _, rfl⟩ | ⟨_, _, _, rfl⟩ <;> rfl

/-- What every one of the transactions keeps, the run over them keeps, and leaves what is offered after them. -/
theorem run_commands_keeps {P : State → Prop} {cs : List Command}
    (hkeeps : ∀ c ∈ cs, ∀ s t rest, s.inputs = .command c :: rest → step s = .next t → P s → P t)
    (hin : s.inputs = cs.map .command ++ rest) (hrun : run cs.length s = .next t) (h : P s) :
    P t ∧ t.inputs = rest := by
  induction cs generalizing s with
  | nil =>
    cases hrun
    exact ⟨h, hin⟩
  | cons c cs ih =>
    obtain ⟨hc, hcs⟩ := List.forall_mem_cons.1 hkeeps
    obtain ⟨u, hstep, hrun⟩ := step_of_run hrun
    exact ih hcs (inputs_of_step_command hin hstep) hrun (hc s u _ hin hstep h)

/-- The first part of a run that does not stop does not stop. -/
theorem run_of_run_add {j k : Nat} (h : run (j + k) s = .next t) :
    ∃ u, run j s = .next u ∧ run k u = .next t := by
  induction j generalizing s with
  | zero => exact ⟨s, rfl, by rwa [Nat.zero_add] at h⟩
  | succ j ih =>
    rw [Nat.succ_add] at h
    obtain ⟨v, hstep, hrun⟩ := step_of_run h
    obtain ⟨u, hj, hk⟩ := ih hrun
    exact ⟨u, (run_succ j hstep).trans hj, hk⟩

theorem poly_of_step_command (hin : s.inputs = .command c :: rest) (hstep : step s = .next t)
    (hc : ∀ p, decode c ≠ .ok (.setPoly p)) : t.poly = s.poly := by
  by_contra hne
  obtain ⟨_, hpoly, _⟩ := eachElementHasItsOwnWriters s t c rest hin hstep
  obtain ⟨p, hd⟩ := hpoly hne
  exact hc p hd

theorem seed_of_step_command (hin : s.inputs = .command c :: rest) (hstep : step s = .next t)
    (hc : ∀ v, decode c ≠ .ok (.setSeed v)) : t.seed = s.seed := by
  by_contra hne
  obtain ⟨_, _, hseed, _⟩ := eachElementHasItsOwnWriters s t c rest hin hstep
  obtain ⟨v, hd⟩ := hseed hne
  exact hc v hd

theorem tblPoly_of_step_command (hin : s.inputs = .command c :: rest) (hstep : step s = .next t)
    (hc : decode c ≠ .ok .buildTable) : t.tblPoly = s.tblPoly := by
  by_contra hne
  obtain ⟨_, _, _, _, _, _, htable, _⟩ := eachElementHasItsOwnWriters s t c rest hin hstep
  exact hc (htable (.inr hne))

end Commands

/-! ## The staged polynomial -/

section Staged

variable {s t : State} {i : Instr}

/-- A command answered OK was performed. -/
theorem effect_of_accepted {d : Word} (hexec : exec i s = .next t) (hok : t.responses = s.responses ++ [⟨0#4, d⟩]) :
    rejection s i = none ∧ t = answeredOk (answer s i) (effect s i) := by
  rcases exec_next hexec with ⟨e, _, rfl⟩ | ⟨hr, _, ht⟩
  · have hcode : errorCode e = 0#4 ∧ 0#32 = d := by simpa using hok
    exact absurd hcode.1 (errorCode_ne_zero e)
  · exact ⟨hr, ht⟩

/-- An accepted update folds with the table of the held TBL_POLY (R31, R134, R135). -/
theorem crc_of_accepted_update (hinv : s.Inv) (hupdate : i.isUpdate = true) (hexec : exec i s = .next t)
    (hok : t.responses = s.responses ++ [okResponse]) :
    t.crc = foldAll (tableOf s.tblPoly) s.crc (i.updateData s.buf) := by
  obtain ⟨_, rfl⟩ := effect_of_accepted hexec hok
  rw [← hinv.table]
  exact effect_crc_of_isUpdate hupdate

/-- An accepted build keeps the invariant and leaves POLY in TBL_POLY (R113). -/
theorem accepted_buildTable (hinv : s.Inv) (hexec : exec .buildTable s = .next t)
    (hok : t.responses = s.responses ++ [okResponse]) : t.Inv ∧ t.tblPoly = s.poly := by
  obtain ⟨hr, rfl⟩ := effect_of_accepted hexec hok
  exact ⟨withPort_inv (effect_inv hinv hr) _ _, rfl⟩

/-- The invariant holds after a run from a state that satisfies it, and so does what every one of the transactions
keeps of the state. -/
theorem run_keeps_with_inv {α : Type} (f : State → α) {cs : List Command} (hinv : s.Inv)
    (hkeeps : ∀ c ∈ cs, ∀ s t rest, s.inputs = .command c :: rest → step s = .next t → f t = f s)
    (hin : s.inputs = cs.map .command) (hrun : run cs.length s = .next t) : t.Inv ∧ f t = f s :=
  (run_commands_keeps (P := fun x => x.Inv ∧ f x = f s)
    (fun c hc x y rest hin hstep ⟨hx, hf⟩ =>
      ⟨stepKeepsTheInvariant x y hx hstep, (hkeeps c hc x y rest hin hstep).trans hf⟩)
    (hin.trans (List.append_nil _).symm) hrun ⟨hinv, rfl⟩).1

/-- Short of `build_table` the held polynomial stays (R256). -/
theorem run_keeps_tblPoly {cs : List Command} (hinv : s.Inv) (hbuild : ∀ c ∈ cs, decode c ≠ .ok .buildTable)
    (hrun : run cs.length { s with inputs := cs.map .command } = .next t) : t.Inv ∧ t.tblPoly = s.tblPoly :=
  run_keeps_with_inv State.tblPoly (s := { s with inputs := cs.map .command }) (withPort_inv hinv _ s.responses)
    (fun c hc _ _ _ hin hstep => tblPoly_of_step_command hin hstep (hbuild c hc)) rfl hrun

/-- Short of another `set_poly` the staged polynomial stays (R112). -/
theorem run_keeps_poly {cs : List Command} (hinv : s.Inv) (hpoly : ∀ c ∈ cs, ∀ p, decode c ≠ .ok (.setPoly p))
    (hrun : run cs.length { s with inputs := cs.map .command } = .next t) : t.Inv ∧ t.poly = s.poly :=
  run_keeps_with_inv State.poly (s := { s with inputs := cs.map .command }) (withPort_inv hinv _ s.responses)
    (fun c hc _ _ _ hin hstep => poly_of_step_command hin hstep (hpoly c hc)) rfl hrun

end Staged

/-- Settles O47: TBL_POLY stays short of a build, POLY short of another `set_poly`, and an accepted build moves POLY to
TBL_POLY. -/
theorem stagedPolynomialWaitsForTheBuild : Obligations.StagedPolynomialWaitsForTheBuild := by
  intro s t p cs hinv hrun
  have hset := step_of_effect (i := .setPoly p) hinv rfl rfl (cs.map .command) s.responses
  replace hrun := (run_succ _ hset).symm.trans hrun
  have hstaged : { effect s (.setPoly p) with responses := s.responses ++ [okResponse] }.Inv :=
    withPort_inv (effect_inv hinv rfl) _ _
  refine ⟨fun hbuild => ?_, fun hpoly u w ds hexec hok hbuild hrun' => ?_⟩
  · obtain ⟨htinv, hheld⟩ := run_keeps_tblPoly hstaged hbuild hrun
    replace hheld : t.tblPoly = s.tblPoly := hheld
    exact ⟨hheld, fun i x hupdate hexec hok => hheld ▸ crc_of_accepted_update htinv hupdate hexec hok⟩
  · obtain ⟨htinv, hp⟩ := run_keeps_poly hstaged hpoly hrun
    obtain ⟨huinv, hbuilt⟩ := accepted_buildTable htinv hexec hok
    obtain ⟨hwinv, hheld⟩ := run_keeps_tblPoly huinv hbuild hrun'
    have hw : w.tblPoly = p := hheld.trans (hbuilt.trans hp)
    exact ⟨hw, fun i x hupdate hexec hok => hw ▸ crc_of_accepted_update hwinv hupdate hexec hok⟩

/-! ## The new seed -/

/-- s with another seed and other responses given: what `set_seed` and the reads of SEED after it differ in (R257). -/
def State.reseed (v : Word) (rs : List Response) (s : State) : State := { s with seed := v, responses := rs }

section Reseed

variable {s t : State} {i : Instr} (v : Word) (rs : List Response)

theorem rejection_reseed : rejection (s.reseed v rs) i = rejection s i := by
  cases i with
  | readReg idx =>
    have hmap : (s.reseed v rs).readIndex idx = none ↔ s.readIndex idx = none :=
      (readIndex_none_iff _ idx).trans (readIndex_none_iff s idx).symm
    simp only [rejection, hmap]
  | _ => rfl

theorem reachesHole_reseed : reachesHole (s.reseed v rs) i = reachesHole s i := by
  cases i <;> rfl

/-- No effect but that of `reset` reads SEED, and none but that of `set_seed` writes it. -/
theorem effect_reseed (hreset : i ≠ .reset) (hseed : ∀ w, i ≠ .setSeed w) :
    effect (s.reseed v rs) i = (effect s i).reseed v rs := by
  cases i with
  | reset => exact absurd rfl hreset
  | setSeed w => exact absurd rfl (hseed w)
  | _ => rfl

/-- Short of `reset` and `set_seed` a transaction goes on with another seed as it does with its own. -/
theorem perform_reseed {c : Command} (hreset : decode c ≠ .ok .reset) (hseed : ∀ w, decode c ≠ .ok (.setSeed w))
    (hperform : perform c s = .next t) : ∃ rs', perform c (s.reseed v rs) = .next (t.reseed v rs') := by
  rcases perform_next hperform with ⟨why, hd, rfl⟩ | ⟨i, hd, hexec⟩
  · exact ⟨rs ++ [⟨1#4, 0#32⟩], perform_illegal hd _⟩
  · rw [perform_of_decode hd]
    rcases exec_next hexec with ⟨e, hr, rfl⟩ | ⟨hr, hh, rfl⟩
    · exact ⟨rs ++ [⟨errorCode e, 0#32⟩], exec_of_rejection (by rwa [rejection_reseed])⟩
    · refine ⟨rs ++ [⟨0#4, answer (s.reseed v rs) i⟩], ?_⟩
      rw [exec_of_effect (by rwa [rejection_reseed]) (by rwa [reachesHole_reseed]),
        effect_reseed v rs (fun hi => hreset (hi ▸ hd)) fun w hi => hseed w (hi ▸ hd)]
      rfl

/-- Short of `reset` and `set_seed` a run goes on with another seed as it does with its own (R257). -/
theorem run_reseed {cs : List Command} (hcs : ∀ c ∈ cs, decode c ≠ .ok .reset ∧ ∀ w, decode c ≠ .ok (.setSeed w))
    (hin : s.inputs = cs.map .command) (hrun : run cs.length s = .next t) :
    ∃ rs', run cs.length (s.reseed v rs) = .next (t.reseed v rs') := by
  induction cs generalizing s rs with
  | nil =>
    cases hrun
    exact ⟨rs, rfl⟩
  | cons c cs ih =>
    obtain ⟨⟨hreset, hseed⟩, hrest⟩ := List.forall_mem_cons.1 hcs
    obtain ⟨u, hstep, hrun⟩ := step_of_run hrun
    obtain ⟨rs', hperform⟩ := perform_reseed v rs hreset hseed ((step_of_command hin).symm.trans hstep)
    obtain ⟨rs'', hrun'⟩ := ih rs' hrest (inputs_of_step_command hin hstep) hrun
    exact ⟨rs'', (run_succ _ ((step_of_command (s := s.reseed v rs) hin).trans hperform)).trans hrun'⟩

end Reseed

/-- `set_seed` writes SEED in the first step (R132). -/
theorem step_setSeed (s : State) (v : Word) (rest : List PortInput) :
    step { s with inputs := .command (encode (.setSeed v)) :: rest } =
      .next { s with seed := v, inputs := rest, responses := s.responses ++ [okResponse] } := by
  rw [step_of_command rfl, perform_of_decode (decode_encode rfl)]
  exact exec_of_effect rfl rfl

/-- `reset` loads SEED into CRC and opens a session in the first step (R133). -/
theorem step_reset (s : State) (rest : List PortInput) :
    step { s with inputs := .command (encode .reset) :: rest } =
      .next { s with
        crc := s.seed, phase := .opened, inputs := rest, responses := s.responses ++ [okResponse] } := by
  rw [step_of_command rfl, perform_of_decode (decode_encode rfl)]
  exact exec_of_effect rfl rfl

/-- Settles O48: the two runs differ by `reseed` all along, and SEED stays until `reset` loads it. -/
theorem seedWaitsForTheReset : Obligations.SeedWaitsForTheReset := by
  refine ⟨fun s u v cs hcs hrun => ?_, fun s t v cs hcs hrun => ?_⟩
  · obtain ⟨rs, hrun'⟩ := run_reseed v (s.responses ++ [okResponse]) hcs rfl hrun
    exact ⟨u.reseed v rs, (run_succ _ (step_setSeed s v _)).trans hrun', rfl, rfl⟩
  · replace hrun := (run_succ _ (step_setSeed s v (cs.map .command ++ [.command (encode .reset)]))).symm.trans hrun
    obtain ⟨u, hcommands, hlast⟩ := run_of_run_add hrun
    obtain ⟨hseed, hin⟩ := run_commands_keeps (P := fun x => x.seed = v)
      (fun c hc x y rest hin hstep hx => (seed_of_step_command hin hstep (hcs c hc)).trans hx) rfl hcommands rfl
    rw [run_one, show u = { u with inputs := [.command (encode .reset)] } by rw [← hin], step_reset] at hlast
    cases hlast
    exact ⟨hseed, rfl⟩

/-! ## The active session -/

section Active

variable {s t : State} {i : Instr}

/-- Only `reset` and `finalize` end an ACTIVE session (R28). -/
theorem effect_phase_of_active (hactive : s.phase = .active) (hreset : i ≠ .reset) (hfinal : i ≠ .finalize) :
    (effect s i).phase = .active := by
  cases i with
  | reset => exact absurd rfl hreset
  | finalize => exact absurd rfl hfinal
  | updateImm nm1 v => rfl
  | updateBuf off len =>
    show (if len.toNat > 0 then Phase.active else s.phase) = .active
    rw [hactive, ite_self]
  | _ => exact hactive

/-- A build that is performed in an ACTIVE session leaves TBL_POLY what it was (R113). -/
theorem effect_tblPoly_of_active (hactive : s.phase = .active) (hr : rejection s i = none) :
    (effect s i).tblPoly = s.tblPoly := by
  by_contra hne
  obtain rfl := buildTable_of_effect_table_ne (.inr hne)
  cases (rejection_buildTable_in_use hactive hne).symm.trans hr

theorem step_of_active {c : Command} {rest : List PortInput} (hactive : s.phase = .active)
    (hin : s.inputs = .command c :: rest) (hc : decode c ≠ .ok .reset ∧ decode c ≠ .ok .finalize)
    (hstep : step s = .next t) : t.phase = .active ∧ t.tblPoly = s.tblPoly := by
  rcases step_command_next hin hstep with ⟨e, _, rfl⟩ | ⟨i, hd, hr, rfl⟩
  · exact ⟨hactive, rfl⟩
  · exact ⟨effect_phase_of_active hactive (fun hi => hc.1 (hi ▸ hd)) fun hi => hc.2 (hi ▸ hd),
      effect_tblPoly_of_active hactive hr⟩

end Active

/-- Settles O49: PHASE and TBL_POLY stay, and TABLE with them, which is table_of(TBL_POLY) all along. -/
theorem activeSessionKeepsItsTable : Obligations.ActiveSessionKeepsItsTable := by
  intro cs s t hinv hactive hcs hrun
  obtain ⟨⟨htinv, hphase, hheld⟩, _⟩ := run_commands_keeps
    (P := fun x => x.Inv ∧ x.phase = .active ∧ x.tblPoly = s.tblPoly)
    (fun c hc x y rest hin hstep ⟨hxinv, hxactive, hxheld⟩ =>
      have ⟨hyactive, hyheld⟩ := step_of_active hxactive hin (hcs c hc) hstep
      ⟨stepKeepsTheInvariant x y hxinv hstep, hyactive, hyheld.trans hxheld⟩)
    (List.append_nil _).symm hrun ⟨withPort_inv hinv _ s.responses, hactive, rfl⟩
  exact ⟨hphase, by rw [htinv.table, hheld, hinv.table], hheld⟩

/-! ## The cycle counts -/

section Cycles

variable {s : State} {i : Instr}

theorem rejected_exec (hb : s.bufLen.toNat ≤ s.bufSize) : rejected (exec i s) = (rejection s i).isSome := by
  rcases exec_next_cases i hb with ⟨e, hr, he⟩ | ⟨hr, he⟩
  · simp [hr, he, rejected, okCode, errorCode_ne_zero]
  · simp [hr, he, rejected, okCode]

/-- The cycles are the one of a rejection, or those of a command that is not rejected (R261). -/
theorem referenceCycles_cases (skip : Bool) (c : Command) (s : State) :
    referenceCycles skip c s = 1 ∨
    ∃ i, rejected (exec i s) = false ∧ referenceCycles skip c s = acceptedCycles skip s i := by
  unfold referenceCycles
  cases decode c with
  | error why => exact .inl rfl
  | ok i =>
    cases hr : rejected (exec i s) with
    | true => exact .inl (if_pos hr)
    | false => exact .inr ⟨i, hr, if_neg (by simp [hr])⟩

theorem acceptedCycles_pos (skip : Bool) (s : State) (i : Instr) : 1 ≤ acceptedCycles skip s i := by
  cases i with
  | buildTable =>
    rw [acceptedCycles]
    split <;> decide
  | updateImm nm1 v => exact byteCount_pos nm1
  | updateBuf off len => exact Nat.le_add_right 1 _
  | _ => exact Nat.le_refl 1

/-- A build takes at most a cycle per entry, and an accepted `update_buf` one more than the bytes it folds, which are
at most BUF_SIZE (R261). -/
theorem acceptedCycles_le (skip : Bool) (hb : s.bufLen.toNat ≤ s.bufSize) (hr : rejection s i = none) :
    acceptedCycles skip s i ≤ 1 + max s.bufSize 256 := by
  cases i with
  | buildTable =>
    rw [acceptedCycles]
    split <;> omega
  | updateImm nm1 v =>
    have hcount : byteCount nm1 ≤ 4 := byteCount_le nm1
    rw [acceptedCycles]
    omega
  | updateBuf off len =>
    have hrange := ((rejection_updateBuf_eq_none_iff off len).1 hr).2
    rw [acceptedCycles]
    omega
  | _ => exact Nat.le_add_right 1 _

theorem referenceCycles_pos (skip : Bool) (c : Command) (s : State) : 1 ≤ referenceCycles skip c s := by
  rcases referenceCycles_cases skip c s with h | ⟨i, _, h⟩
  · rw [h]
  · rw [h]
    exact acceptedCycles_pos skip s i

end Cycles

/-- Settles O57: a rejection takes one cycle, and a command that is performed is within its bounds. -/
theorem everyCommandEndsInBoundedTime : Obligations.EveryCommandEndsInBoundedTime := by
  intro skip c s hinv
  refine ⟨referenceCycles_pos skip c s, ?_⟩
  rcases referenceCycles_cases skip c s with h | ⟨i, hr, h⟩
  · rw [h]
    exact Nat.le_add_right 1 _
  · rw [rejected_exec hinv.bufLen, Option.isSome_eq_false_iff, Option.isNone_iff_eq_none] at hr
    rw [h]
    exact acceptedCycles_le skip hinv.bufLen hr

/-! ## The reference port -/

/-- The block takes and performs the events in order, from the state s to the state t, giving the responses rs, and is
idle again after them. -/
structure Serves (s : State) (events : List PortInput) (t : State) (rs : List Response) : Prop where
  runs : run events.length { s with inputs := events } = .next t
  inv : t.Inv
  idle : t.inputs = []
  answers : t.responses = s.responses ++ rs

section Serves

variable {s t u : State}

theorem serves_nothing (hinv : s.Inv) (hidle : s.inputs = []) : Serves s [] s [] where
  runs := by rw [List.length_nil, run_zero, ← hidle]
  inv := hinv
  idle := hidle
  answers := (List.append_nil _).symm

theorem Serves.append {xs ys : List PortInput} {rs rs' : List Response} (h : Serves s xs t rs)
    (h' : Serves t ys u rs') : Serves s (xs ++ ys) u (rs ++ rs') where
  runs := by
    obtain ⟨_, _, hrun⟩ := commandsTakeEffectInOrder xs ys s t h.runs
    rw [List.length_append, hrun, h'.runs]
  inv := h'.inv
  idle := h'.idle
  answers := by rw [h'.answers, h.answers, List.append_assoc]

theorem portPerform_of_step {x : PortInput} (h : step { s with inputs := [x] } = .next t) : portPerform x s = t := by
  rw [portPerform, h]

/-- The abandoned command of a hardware reset is given no response (R250). -/
theorem serves_hardwareReset (hinv : s.Inv) (f : Option Command) :
    Serves s [.hardwareReset f] (portPerform (.hardwareReset f) s) [] where
  runs := rfl
  inv := resetWith_inv hinv.config _ _
  idle := rfl
  answers := (List.append_nil _).symm

/-- Under the invariant the port performs the step of the machine, which gives one response. -/
theorem step_portPerform_command (hinv : s.Inv) (c : Command) :
    step { s with inputs := [.command c] } = .next (portPerform (.command c) s) ∧
    (portPerform (.command c) s).inputs = [] ∧
    ∃ r, (portPerform (.command c) s).responses = s.responses ++ [r] := by
  obtain ⟨t, r, hstep, hidle, hresp, _⟩ := everyTransactionIsAnsweredOnce
    { s with inputs := [.command c] } c [] (withPort_inv hinv _ s.responses) rfl
  rw [portPerform_of_step hstep]
  exact ⟨hstep, hidle, r, hresp⟩

theorem serves_command (hinv : s.Inv) (c : Command) :
    Serves s [.command c] (portPerform (.command c) s) (portPerform (.command c) s).responses.getLast?.toList := by
  obtain ⟨hstep, hidle, r, hresp⟩ := step_portPerform_command hinv c
  exact ⟨(run_one _).trans hstep, stepKeepsTheInvariant _ _ (withPort_inv hinv _ s.responses) hstep, hidle, by
    rw [hresp, List.getLast?_concat, Option.toList_some]⟩

end Serves

section PortCycle

variable (p : PortParams) {s : PortState} {pins : PortPins} {c : Command} {n : Nat}

theorem portCycle_reset (h : pins.rstN = false) :
    portCycle p s pins =
      (⟨false, none⟩, ⟨portPerform (.hardwareReset (s.inFlight.map Prod.fst)) s.block, bootCycles, none⟩,
        [.hardwareReset (s.inFlight.map Prod.fst)]) :=
  if_pos h

theorem portCycle_boot {b : Nat} (h : pins.rstN = true) (hboot : s.boot = b + 1) :
    portCycle p s pins = (⟨false, none⟩, ⟨s.block, b, none⟩, []) := by
  simp [portCycle, h, hboot]

theorem portCycle_idle (h : pins.rstN = true) (hboot : s.boot = 0) (hidle : s.inFlight = none) :
    portCycle p s pins = (⟨true, none⟩, ⟨s.block, 0, portAccept p pins s.block⟩, []) := by
  simp [portCycle, h, hboot, hidle]

theorem portCycle_wait (h : pins.rstN = true) (hboot : s.boot = 0) (hflight : s.inFlight = some (c, n))
    (hn : 1 < n) : portCycle p s pins = (⟨false, none⟩, ⟨s.block, 0, some (c, n - 1)⟩, []) := by
  simp [portCycle, h, hboot, hflight, Nat.not_le.2 hn]

theorem portCycle_respond (h : pins.rstN = true) (hboot : s.boot = 0) (hflight : s.inFlight = some (c, n))
    (hn : n ≤ 1) :
    portCycle p s pins =
      (⟨p.eager, (portPerform (.command c) s.block).responses.getLast?⟩,
        ⟨portPerform (.command c) s.block, 0,
          if p.eager then portAccept p pins (portPerform (.command c) s.block) else none⟩,
        [.command c]) := by
  simp [portCycle, h, hboot, hflight, hn]

/-- What a cycle can be, by what the port is doing. -/
inductive CycleCase (s : PortState) (pins : PortPins) : Prop where
  | reset (h : pins.rstN = false)
  | boot (h : pins.rstN = true) (b : Nat) (hboot : s.boot = b + 1)
  | idle (h : pins.rstN = true) (hboot : s.boot = 0) (hidle : s.inFlight = none)
  | wait (h : pins.rstN = true) (hboot : s.boot = 0) (c : Command) (n : Nat) (hflight : s.inFlight = some (c, n))
      (hn : 1 < n)
  | respond (h : pins.rstN = true) (hboot : s.boot = 0) (c : Command) (n : Nat) (hflight : s.inFlight = some (c, n))
      (hn : n ≤ 1)

theorem cycleCase (s : PortState) (pins : PortPins) : CycleCase s pins := by
  cases h : pins.rstN with
  | false => exact .reset h
  | true =>
    cases hboot : s.boot with
    | succ b => exact .boot h b hboot
    | zero =>
      match hflight : s.inFlight with
      | none => exact .idle h hboot hflight
      | some (c, n) =>
        rcases Nat.lt_or_ge 1 n with hn | hn
        · exact .wait h hboot c n hflight hn
        · exact .respond h hboot c n hflight hn

/-- In every cycle the block serves what the port hands it, and its response is the one on the pins. -/
theorem portCycle_serves (hinv : s.block.Inv) (hidle : s.block.inputs = []) (pins : PortPins) :
    Serves s.block (portCycle p s pins).2.2 (portCycle p s pins).2.1.block (portCycle p s pins).1.response.toList := by
  cases cycleCase s pins with
  | reset h =>
    rw [portCycle_reset p h]
    exact serves_hardwareReset hinv _
  | boot h b hboot =>
    rw [portCycle_boot p h hboot]
    exact serves_nothing hinv hidle
  | idle h hboot hflight =>
    rw [portCycle_idle p h hboot hflight]
    exact serves_nothing hinv hidle
  | wait h hboot c n hflight hn =>
    rw [portCycle_wait p h hboot hflight hn]
    exact serves_nothing hinv hidle
  | respond h hboot c n hflight hn =>
    rw [portCycle_respond p h hboot hflight hn]
    exact serves_command hinv c

theorem portRun_cons (s : PortState) (pins : PortPins) (more : List PortPins) :
    portRun p s (pins :: more) =
      ((portCycle p s pins).1 :: (portRun p (portCycle p s pins).2.1 more).1,
        (portRun p (portCycle p s pins).2.1 more).2.1,
        (portCycle p s pins).2.2 ++ (portRun p (portCycle p s pins).2.1 more).2.2) := rfl

theorem filterMap_response_cons (out : PortOut) (outs : List PortOut) :
    (out :: outs).filterMap PortOut.response = out.response.toList ++ outs.filterMap PortOut.response := by
  cases h : out.response with
  | none => exact List.filterMap_cons_none h
  | some r => exact List.filterMap_cons_some h

/-- Over any cycles the block serves what the port hands it, and its responses are those on the pins, in order. -/
theorem portRun_serves (hinv : s.block.Inv) (hidle : s.block.inputs = []) (pins : List PortPins) :
    Serves s.block (portRun p s pins).2.2 (portRun p s pins).2.1.block
      ((portRun p s pins).1.filterMap PortOut.response) := by
  induction pins generalizing s with
  | nil => exact serves_nothing hinv hidle
  | cons x more ih =>
    have hcycle := portCycle_serves p hinv hidle x
    rw [portRun_cons, filterMap_response_cons]
    exact hcycle.append (ih hcycle.inv hcycle.idle)

/-- A command in flight with n + 1 cycles left is performed in the last of them, and the port is silent before (R261,
R262). -/
theorem portRun_of_inFlight {pins : List PortPins} (hboot : s.boot = 0) (hflight : s.inFlight = some (c, n + 1))
    (hlength : pins.length = n + 1) (hrst : ∀ x ∈ pins, x.rstN = true) :
    (portRun p s pins).1 =
        List.replicate n ⟨false, none⟩ ++ [⟨p.eager, (portPerform (.command c) s.block).responses.getLast?⟩] ∧
      (portRun p s pins).2.2 = [.command c] := by
  induction n generalizing s pins with
  | zero =>
    obtain ⟨x, rfl⟩ := List.length_eq_one_iff.1 hlength
    rw [portRun_cons, portCycle_respond p (hrst x List.mem_cons_self) hboot hflight (Nat.le_refl 1)]
    exact ⟨rfl, rfl⟩
  | succ n ih =>
    obtain ⟨x, more, rfl⟩ := List.exists_cons_of_length_eq_add_one hlength
    obtain ⟨hx, hmore⟩ := List.forall_mem_cons.1 hrst
    obtain ⟨houts, hevents⟩ := ih (s := ⟨s.block, 0, some (c, n + 1)⟩) rfl rfl (Nat.succ.inj hlength) hmore
    rw [portRun_cons, portCycle_wait p hx hboot hflight (by omega), List.replicate_succ]
    exact ⟨congrArg (List.cons _) houts, hevents⟩

/-- cmd_ready is high in a cycle that accepts the command offered, if any, and no other cycle puts a command in flight
(R262). -/
theorem portCycle_inFlight (s : PortState) (pins : PortPins) :
    ((portCycle p s pins).1.cmdReady = true → pins.rstN = true ∧ (portCycle p s pins).2.1.boot = 0 ∧
      (portCycle p s pins).2.1.inFlight = portAccept p pins (portCycle p s pins).2.1.block) ∧
    ((portCycle p s pins).1.cmdReady = false → ∀ c n, (portCycle p s pins).2.1.inFlight = some (c, n) →
      s.inFlight = some (c, n + 1)) := by
  cases cycleCase s pins with
  | reset h =>
    rw [portCycle_reset p h]
    exact ⟨nofun, nofun⟩
  | boot h b hboot =>
    rw [portCycle_boot p h hboot]
    exact ⟨nofun, nofun⟩
  | idle h hboot hflight =>
    rw [portCycle_idle p h hboot hflight]
    exact ⟨fun _ => ⟨h, rfl, rfl⟩, nofun⟩
  | wait h hboot c n hflight hn =>
    rw [portCycle_wait p h hboot hflight hn]
    refine ⟨nofun, fun _ d m hleft => ?_⟩
    cases hleft
    rw [hflight, Nat.sub_add_cancel hn.le]
  | respond h hboot c n hflight hn =>
    rw [portCycle_respond p h hboot hflight hn]
    refine ⟨fun hready => ⟨h, rfl, if_pos hready⟩, fun hready d m hleft => ?_⟩
    replace hready : p.eager = false := hready
    simp [hready] at hleft

end PortCycle

/-- Settles O58: by induction on the cycles, in each of which the block serves at most one event. -/
theorem referencePortRefinesTheMachine : Obligations.ReferencePortRefinesTheMachine := by
  intro p s pins hinv hidle
  have hserves := portRun_serves p hinv hidle pins
  exact ⟨hserves.runs, hserves.answers⟩

/-- Settles O59: an accepted command is in flight, a command in flight counts down in silence, and the last cycle shows
the response of the machine's step. -/
theorem acceptedCommandIsAnsweredOnTime : Obligations.AcceptedCommandIsAnsweredOnTime := by
  refine ⟨?_, ?_, ?_⟩
  · rintro p s pins out t events hcycle
    obtain ⟨haccept, hkeep⟩ := portCycle_inFlight p s pins
    rw [hcycle] at haccept hkeep
    exact ⟨haccept, fun hready c n hleft => ⟨n + 1, hkeep hready c n hleft, rfl⟩⟩
  · intro p s c n pins hinv _ hboot hflight hlength hrst
    obtain ⟨houts, hevents⟩ := portRun_of_inFlight p hboot hflight hlength hrst
    obtain ⟨hstep, _, r, hresp⟩ := step_portPerform_command hinv c
    refine ⟨_, _, _, houts, fun o ho => ?_, hstep, by simp [hresp], rfl, hevents⟩
    obtain rfl := List.eq_of_mem_replicate ho
    exact ⟨rfl, rfl⟩
  · intro p s first pins hinv _ hboot hflight hrst hvalid hlength hpins
    obtain ⟨n, hn⟩ := Nat.exists_eq_add_of_le' (referenceCycles_pos p.skip first.command s.block)
    have haccept : portAccept p first s.block = some (first.command, n + 1) := by
      rw [portAccept, if_pos hvalid, hn]
    obtain ⟨houts, hevents⟩ := portRun_of_inFlight p (s := ⟨s.block, 0, some (first.command, n + 1)⟩) rfl rfl
      (hlength.trans hn) hpins
    obtain ⟨_, _, r, hresp⟩ := step_portPerform_command hinv first.command
    rw [portRun_cons, portCycle_idle p hrst hboot hflight, haccept]
    refine ⟨_, _, congrArg (List.cons _) houts, ?_, fun o ho => ?_, by simp [hresp], hevents⟩
    · rw [List.length_replicate, hn]
    · obtain rfl := List.eq_of_mem_replicate ho
      exact ⟨rfl, rfl⟩

end Sys2Proof.Machine
